-- ==== Sys2Proof/Word.lean ====
section
/-! DEFINITION. The word types of the block (spec/00_scope.md R7, R9, R10): every width the spec gives,
under the spec's own name for the thing. -/

namespace Sys2Proof

/-- A command word, CMD_BITS = 32 (R7, R60). -/
abbrev Word := BitVec 32

/-- A dimension or a scan coordinate, DIM_BITS = 16 (R7, R21). -/
abbrev Dim := BitVec 16

/-- An 8-bit intensity, noise value or table index (R7, R63, R100, R101). -/
abbrev Pix := BitVec 8

/-- One output beat (R46). -/
abbrev Beat := BitVec 8

/-- One byte of a byte-addressed memory that holds ERR (R45). -/
abbrev Byte := BitVec 8

/-- A word address of the error memory, ERR_ADDR_BITS = 32 (R7, R40). -/
abbrev ErrAddr := BitVec 32

/-- An IEEE 754 binary64 value in its interchange layout, ERR_WORD_BITS = 64 (R7, R11, R44). -/
abbrev F64 := BitVec 64

end Sys2Proof
end

