-- ==== Sys2Proof/Machine/Operands.lean ====
section
/-! DEFINITION. The fields of a command word and operand assembly (spec/30_encoding.md R60, R62, R63): every operand is an
unsigned field, taken without sign extension, scaling or shifting. -/

namespace Sys2Proof.Machine

/-- OP = cmd[31:28] (R60). -/
def opField (cmd : Word) : BitVec 4 := cmd.extractLsb' 28 4

/-- RSV28 = cmd[27:0], format N (R62). -/
def rsv28Field (cmd : Word) : BitVec 28 := cmd.extractLsb' 0 28

/-- RSV12 = cmd[27:16], formats D and P (R62). -/
def rsv12Field (cmd : Word) : BitVec 12 := cmd.extractLsb' 16 12

/-- IMM16 = cmd[15:0], format D (R63). -/
def imm16Field (cmd : Word) : Dim := cmd.extractLsb' 0 16

/-- LEVEL = cmd[7:0], format P (R63). -/
def levelField (cmd : Word) : Pix := cmd.extractLsb' 0 8

/-- NOISE = cmd[15:8], format P (R63); 255 is accepted (D5). -/
def noiseField (cmd : Word) : Pix := cmd.extractLsb' 8 8

end Sys2Proof.Machine
end

