-- ==== Sys2Proof/Syntax.lean ====
section
/-! DEFINITION. The five commands (spec/30_encoding.md R62, R64; spec/opcode_table.json) and the assembler's lines
(R68, R69). -/

namespace Sys2Proof

/-- The commands, one constructor per row of the opcode table. Operands are the unsigned fields of R63, so an operand
cannot be out of range and every term is well formed. -/
inductive Instr
  /-- NOP (R111) -/
  | nop
  /-- SETW w (R112) -/
  | setw (w : Dim)
  /-- SETH h (R113) -/
  | seth (h : Dim)
  /-- START (R114) -/
  | start
  /-- PIXEL p, n: original intensity p, noise value n (R116) -/
  | pixel (p n : Pix)
deriving DecidableEq, Repr

/-- What decoding a word gives (R65, R66): exactly one of a command, an illegal opcode (ILL), or an assigned opcode with
reserved bits set (RSV). -/
inductive Decoded
  | instr (i : Instr)
  /-- ILL: OP in 0x5 .. 0xF -/
  | illegalOpcode
  /-- RSV: assigned OP, RSV28 or RSV12 not all zero -/
  | reservedField
deriving DecidableEq, Repr

/-- One line of assembler source (R68, R69). Operands are natural numbers as written, in range or not:
`AsmLine.wellFormed` is the assembler's check. -/
inductive AsmLine
  | nop
  | setw (w : Nat)
  | seth (h : Nat)
  | start
  | pixel (p n : Nat)
  /-- the pseudo-instruction FRAME w, h (R69) -/
  | frame (w h : Nat)
  /-- raw data, `.word v` -/
  | word (v : Nat)
  /-- a line with no command: empty, or only a comment -/
  | blank
deriving DecidableEq, Repr

end Sys2Proof
end

