-- ==== Sys2Proof/Decode.lean ====
section
/-! DEFINITION. The decoder and the encoder of command words (spec/30_encoding.md R60 to R67) and the opcode table (R64). -/

namespace Sys2Proof

open Machine

/-- The decoder, total on all 2^32 words and the same in every state (R66, R67). -/
def decode (cmd : Word) : Decoded :=
  match (opField cmd).toNat with
  | 0x0 => if rsv28Field cmd ≠ 0 then .reservedField else .instr .nop
  | 0x1 => if rsv12Field cmd ≠ 0 then .reservedField else .instr (.setw (imm16Field cmd))
  | 0x2 => if rsv12Field cmd ≠ 0 then .reservedField else .instr (.seth (imm16Field cmd))
  | 0x3 => if rsv28Field cmd ≠ 0 then .reservedField else .instr .start
  | 0x4 => if rsv12Field cmd ≠ 0 then .reservedField else .instr (.pixel (levelField cmd) (noiseField cmd))
  | _ => .illegalOpcode

/-- Format N (R62): OP, RSV28 = 0. -/
def formatN (op : BitVec 4) : Word := op ++ 0#28

/-- Format D (R62): OP, RSV12 = 0, IMM16. -/
def formatD (op : BitVec 4) (imm16 : Dim) : Word := op ++ 0#12 ++ imm16

/-- Format P (R62): OP, RSV12 = 0, NOISE, LEVEL. -/
def formatP (op : BitVec 4) (noise level : Pix) : Word := op ++ 0#12 ++ noise ++ level

/-- The encoder: the one word of each command (R62, R64). -/
def encode : Instr → Word
  | .nop => formatN 0x0
  | .setw w => formatD 0x1 w
  | .seth h => formatD 0x2 h
  | .start => formatN 0x3
  | .pixel p n => formatP 0x4 n p

/-- One row of the opcode map (R64): a word is the row's when its bits under the mask are the match. -/
structure OpcodeRow where
  pattern : Word
  mask : Word
deriving DecidableEq, Repr

def OpcodeRow.hit (row : OpcodeRow) (cmd : Word) : Bool := decide (cmd &&& row.mask = row.pattern)

/-- The opcode map of R64, row by row. -/
def opcodeRow : Instr → OpcodeRow
  | .nop => ⟨0x00000000#32, 0xFFFFFFFF#32⟩
  | .setw _ => ⟨0x10000000#32, 0xFFFF0000#32⟩
  | .seth _ => ⟨0x20000000#32, 0xFFFF0000#32⟩
  | .start => ⟨0x30000000#32, 0xFFFFFFFF#32⟩
  | .pixel _ _ => ⟨0x40000000#32, 0xFFFF0000#32⟩

/-- The command word whose low `nbits` bits are those of `w` and whose other bits are 0. A command word is one whole
32-bit unit (R45, R60), so there is no byte order to lay out. -/
def tableWord (nbits w : Nat) : Word := BitVec.ofNat 32 (w % 2 ^ nbits)

/-- What the decoder reads from a table word (none where it rejects it). -/
def decodeTableWord (nbits w : Nat) : Option Instr :=
  match decode (tableWord nbits w) with
  | .instr i => some i
  | .illegalOpcode => none
  | .reservedField => none

end Sys2Proof
end

