-- ==== Sys2Proof/Config.lean ====
section
/-! DEFINITION. What is fixed when a block is built (spec/42_tables.md R100 to R107, spec/00_scope.md R7, R8) and the
free values: the points the spec leaves open, held as constants that no proof can see into. -/

namespace Sys2Proof

/-- One record of the coefficient table (R100): right weight, down-left weight, down weight, normalization sum,
all natural numbers (R102 (a)). -/
structure CoefRow where
  /-- right weight -/
  cr : Nat
  /-- down-left weight -/
  cdl : Nat
  /-- down weight -/
  cd : Nat
  /-- normalization sum -/
  csum : Nat
deriving DecidableEq, Repr

/-- R102 (b) to (e) for one row: csum >= 1, cr + cdl + cd <= csum, every field below 2^53 and below 2^COEF_BITS. -/
def CoefRow.legal (coefBits : Nat) (row : CoefRow) : Bool :=
  decide (1 ≤ row.csum) && decide (row.cr + row.cdl + row.cd ≤ row.csum)
    && [row.cr, row.cdl, row.cd, row.csum].all
        (fun field => decide (field < 2 ^ 53) && decide (field < 2 ^ coefBits))

/-- R103 for one entry: a finite f64 between +0.0 and 1.0, never negative zero. In the layout of R44 these are exactly
the patterns from that of +0.0 up to that of 1.0 (the sign bit clear; non-negative patterns are ordered as their values
are): `Sys2Proof.Laws.legalStrength_iff` says the same by the comparisons of R11. -/
def legalStrength (strength : F64) : Bool :=
  decide (strength.toNat ≤ 0x3FF0000000000000)

/-- The table parameters of R7: COEF_BITS, COEF_TABLE and MOD_TABLE. -/
structure Tables where
  /-- COEF_BITS, the stored width of each coefficient field (R7, R106). -/
  coefBits : Nat
  /-- COEF_TABLE, row `i` at position `i` (R100). -/
  coef : List CoefRow
  /-- MOD_TABLE, entry `i` at position `i` (R101). -/
  strength : List F64
deriving DecidableEq, Repr

/-- R102 and R103 for whole tables of LEVELS = 256 entries (R7). -/
def Tables.legal (t : Tables) : Bool :=
  decide (t.coef.length = 256) && decide (t.strength.length = 256)
    && t.coef.all (CoefRow.legal t.coefBits) && t.strength.all legalStrength

/-- Tables that meet R102 and R103. They only show that legal tables exist (so that `Config.roms` can be declared);
no definition of the machine uses their entries. -/
def Tables.someLegal : Tables where
  coefBits := 1
  coef := List.replicate 256 ⟨0, 0, 0, 1⟩
  strength := List.replicate 256 0

/-- The two ROMs of one block (R30): tables TOGETHER WITH the fact that they meet R102 and R103. A configuration that
breaks those rules cannot be built, which is how this model refuses it (R102, R103; U1; log entry 3). -/
structure Roms where
  tables : Tables := Tables.someLegal
  legal : tables.legal = true := by decide +kernel
deriving DecidableEq, Repr, Inhabited

theorem Roms.coef_length (roms : Roms) : roms.tables.coef.length = 256 := by
  have h := roms.legal
  simp only [Tables.legal, Bool.and_eq_true, decide_eq_true_eq] at h
  exact h.1.1.1

theorem Roms.strength_length (roms : Roms) : roms.tables.strength.length = 256 := by
  have h := roms.legal
  simp only [Tables.legal, Bool.and_eq_true, decide_eq_true_eq] at h
  exact h.1.1.2

/-- The three entries the source fixes (R105), the NAMED PREMISES a claim may take about its tables: COEF_TABLE[0] =
(13, 0, 5, 18) and MOD_TABLE[200] = MOD_TABLE[50] = 0.34. Nothing of the machine uses them. -/
def Roms.SourceEntries (roms : Roms) : Prop :=
  roms.tables.coef[0]? = some ⟨13, 0, 5, 18⟩
    ∧ roms.tables.strength[200]? = some 0x3FD5C28F5C28F5C3#64
    ∧ roms.tables.strength[50]? = some 0x3FD5C28F5C28F5C3#64

/-- The four rounded operations of R11; names of free values. -/
inductive FloatOp
  | add | sub | mul | div
deriving DecidableEq, Repr

/-- FREE VALUE. The ROM contents of the block at hand: COEF_TABLE, MOD_TABLE and COEF_BITS are open parameters (R7, R8,
R104; D22, D23; U1, U3). Uninterpreted: a claim that holds of a state whose tables are these holds for all legal tables.
Log entry 3. -/
opaque Config.roms : Roms

/-- FREE VALUE. The byte the error memory holds at a byte address nothing has written since power-up (R34, R151; U5:
`any value`). Log entry 4. -/
opaque Config.errPowerUp : Nat → Byte

/-- FREE VALUE. Sign and fraction of the NaN that an operation of R11 delivers for two operands: IEEE 754 fixes that the
result is a NaN, not which. Log entry 6. -/
opaque Config.nanChoice : FloatOp → F64 → F64 → BitVec 53

end Sys2Proof
end

