-- ==== Sys2Proof/Machine/Float64.lean ====
section
/-! DEFINITION. The real-number operations of spec/00_scope.md R11: IEEE 754 binary64 with roundTiesToEven (D7, D8; G1, G2:
IEEE 754 itself is general knowledge, log entry 8). Each operation converts its finite operands to exact integers,
computes exactly, and rounds once at the end.

A finite binary64 value is an integer multiple of 2^-1074. Its MAGNITUDE here is that integer, a natural number: the
absolute value counted in units of 2^-1074. -/

namespace Sys2Proof.Machine

/-! ### The layout (R44): bit 63 the sign, bits [62:52] the biased exponent, bits [51:0] the fraction -/

/-- Bit 63. -/
def signBit (a : F64) : Bool := a.getLsbD 63

/-- Bits [62:52]. -/
def expField (a : F64) : Nat := a.toNat / 2 ^ 52 % 2 ^ 11

/-- Bits [51:0]. -/
def fracField (a : F64) : Nat := a.toNat % 2 ^ 52

/-- `isFinite(a)` of R11: true iff `a` is neither an infinity nor NaN. -/
def isFinite (a : F64) : Bool := decide (expField a ≠ 0x7FF)

def isNaN (a : F64) : Bool := decide (expField a = 0x7FF) && decide (fracField a ≠ 0)

def isInf (a : F64) : Bool := decide (expField a = 0x7FF) && decide (fracField a = 0)

/-- The value has magnitude 0: +0.0 or -0.0. -/
def isZero (a : F64) : Bool := decide (expField a = 0) && decide (fracField a = 0)

/-- The magnitude of a finite value in units of 2^-1074: the fraction of a subnormal, or 2^52 + fraction scaled by
2^(exponent - 1) of a normal value. (An infinity's pattern reads as 2^2098 units, above every finite value, so that
`valueUnits` orders infinities too.) -/
def magUnits (a : F64) : Nat :=
  if expField a = 0 then fracField a else (2 ^ 52 + fracField a) * 2 ^ (expField a - 1)

/-- 1.0 in units of 2^-1074. -/
def unitsPerOne : Nat := 2 ^ 1074

/-- The value in units of 2^-1074. -/
def valueUnits (a : F64) : Int :=
  if signBit a then -(magUnits a : Int) else (magUnits a : Int)

/-- A pattern from its sign and the number in its other 63 bits. -/
def packBits (negative : Bool) (magnitudeBits : Nat) : F64 :=
  BitVec.ofNat 64 ((if negative then 2 ^ 63 else 0) + magnitudeBits)

/-- The 63 low bits of an infinity. -/
def infBits : Nat := 0x7FF * 2 ^ 52

def infinity (negative : Bool) : F64 := packBits negative infBits

/-- A NaN with the sign and fraction of `choice`, any of the NaN patterns (a fraction of 0 would be an infinity, so it
stands for the pattern with the top fraction bit set). -/
def nanOf (choice : BitVec 53) : F64 :=
  let frac := choice.toNat % 2 ^ 52
  packBits (choice.getLsbD 52) (infBits + (if frac = 0 then 2 ^ 51 else frac))

/-- Round half to even: the quotient `n / d` to the nearest natural number, a tie to the even one. -/
def roundHalfEven (n d : Nat) : Nat :=
  let q := n / d
  let r := n % d
  if d < 2 * r ∨ (2 * r = d ∧ q % 2 = 1) then q + 1 else q

/-- How many bits the magnitude of `n / d` units has beyond the 53 of a significand: the value is rounded to a multiple
of 2^(excessBits n d) units. -/
def excessBits (n d : Nat) : Nat := Nat.log2 (n / d) - 52

/-- roundTiesToEven of the exact magnitude `n / d` units (`d > 0`): the 63 low bits of the result. With the significand
`m` rounded at 2^k units these bits are the number k * 2^52 + m, for a subnormal (k = 0, m < 2^52) as for a normal
value, and a carry out of `m` is the next exponent; from 2^1024 on the result is an infinity. -/
def roundBits (n d : Nat) : Nat :=
  let k := excessBits n d
  min (k * 2 ^ 52 + roundHalfEven n (d * 2 ^ k)) infBits

/-! ### The operations of R11 -/

def posZero : F64 := 0x0000000000000000#64
def val1 : F64 := 0x3FF0000000000000#64
def val128 : F64 := 0x4060000000000000#64
def val255 : F64 := 0x406FE00000000000#64

/-- `f64(n)`: the exact binary64 value of a natural number below 2^53. -/
def f64 (n : Nat) : F64 := packBits false (roundBits (n * unitsPerOne) 1)

/-- The sum or the difference of two finite operands, given by its exact value; an exact zero is +0.0 under
roundTiesToEven unless both addends are negative zeros. -/
def roundSum (exact : Int) (bothNegative : Bool) : F64 :=
  if exact = 0 then packBits bothNegative 0
  else packBits (decide (exact < 0)) (roundBits exact.natAbs 1)

/-- `add64(a, b)`. -/
def add64 (a b : F64) : F64 :=
  if isNaN a || isNaN b || (isInf a && isInf b && signBit a != signBit b) then nanOf (Config.nanChoice .add a b)
  else if isInf a then a
  else if isInf b then b
  else roundSum (valueUnits a + valueUnits b) (signBit a && signBit b)

/-- `sub64(a, b)`. -/
def sub64 (a b : F64) : F64 :=
  if isNaN a || isNaN b || (isInf a && isInf b && signBit a == signBit b) then nanOf (Config.nanChoice .sub a b)
  else if isInf a then a
  else if isInf b then infinity (!signBit b)
  else roundSum (valueUnits a - valueUnits b) (signBit a && !signBit b)

/-- `mul64(a, b)`: the product of two magnitudes counts units of 2^-2148. -/
def mul64 (a b : F64) : F64 :=
  if isNaN a || isNaN b || (isInf a && isZero b) || (isZero a && isInf b) then nanOf (Config.nanChoice .mul a b)
  else if isInf a || isInf b then infinity (signBit a != signBit b)
  else packBits (signBit a != signBit b) (roundBits (magUnits a * magUnits b) (unitsPerOne))

/-- `div64(a, b)`. -/
def div64 (a b : F64) : F64 :=
  if isNaN a || isNaN b || (isInf a && isInf b) || (isZero a && isZero b) then nanOf (Config.nanChoice .div a b)
  else if isInf a || isZero b then infinity (signBit a != signBit b)
  else if isInf b then packBits (signBit a != signBit b) 0
  else packBits (signBit a != signBit b) (roundBits (magUnits a * unitsPerOne) (magUnits b))

/-- `ge64(a, b)`, compareQuietGreaterEqual: a >= b as reals, false if either is NaN; +0.0 and -0.0 are equal. -/
def ge64 (a b : F64) : Bool :=
  !isNaN a && !isNaN b && decide (valueUnits b ≤ valueUnits a)

/-- `max64`, used only on non-NaN values. Which zero the two zeros give is not observable (log entry 7). -/
def max64 (a b : F64) : F64 := if ge64 a b then a else b

/-- `min64`, used only on non-NaN values. -/
def min64 (a b : F64) : F64 := if ge64 a b then b else a

/-- `floor64(a)`, used only on values in [0.0, 255.0]: the largest integer not greater than `a`. -/
def floor64 (a : F64) : Nat := magUnits a / unitsPerOne

end Sys2Proof.Machine
end

