-- ==== Sys2Proof/Machine/State.lean ====
section
/-! DEFINITION. The state of the block, of the memory and ports beside it, and the state after reset
(spec/10_state.md R20 to R34, spec/20_memory.md R40). -/

namespace Sys2Proof.Machine

/-- STATE, the sequencer state (R22); every 2-bit value is legal. -/
inductive SeqState
  /-- 0: no frame has been started since reset -/
  | idle
  /-- 1: a frame is in progress -/
  | run
  /-- 2: the last frame finished -/
  | done
  /-- 3: a fault was taken; sticky until reset -/
  | error
deriving DecidableEq, Repr

/-- CAUSE (R26, R130). The values 5..15 are never written, so there is no constructor for them (U16, log entry 13). -/
inductive Cause
  /-- 0: no fault since reset -/
  | none
  /-- 1: ILLEGAL_OPCODE -/
  | illegalOpcode
  /-- 2: RESERVED_FIELD -/
  | reservedField
  /-- 3: BAD_STATE -/
  | badState
  /-- 4: NONFINITE -/
  | nonfinite
deriving DecidableEq, Repr

/-- "The block holds exactly these registers" (R21). -/
structure Regs where
  /-- STATE -/
  state : SeqState
  /-- WIDTH -/
  width : Dim
  /-- HEIGHT -/
  height : Dim
  /-- ROW, the row of the next pixel step -/
  row : Dim
  /-- COL, the column of the next pixel step -/
  col : Dim
  /-- CAUSE -/
  cause : Cause
  /-- ERRCMD, the command word that faulted -/
  errcmd : Word
deriving DecidableEq, Repr

/-- The reset values (R34). -/
def Regs.reset : Regs where
  state := .idle
  width := 0
  height := 0
  row := 0
  col := 0
  cause := .none
  errcmd := 0

/-- The memory that holds ERR, as the bytes written so far: word `a` at bytes 8*a .. 8*a + 7 (R45; log entry 5),
addresses strictly rising (`Memory.wf`). A byte that is not listed has not been written since power-up. -/
abbrev Memory := List Host.Cell

/-- One event of the error-memory port (R12, R31 (d), R49). -/
inductive ErrAccess
  | read (a : ErrAddr)
  | write (a : ErrAddr) (v : F64)
deriving DecidableEq, Repr

/-- What the outside does to the block, one event at a time (log entry 2). -/
inductive Input
  /-- the host offers a command word on CMD (R61) -/
  | command (w : Word)
  /-- reset is asserted between commands (R150) -/
  | reset
  /-- the word `w` is accepted, and reset lands while it executes (R150): `kept` says, access by access, which of the
  command's ERR accesses were performed (those past its end were not), `beatSent` whether its beat was sent -/
  | resetDuring (w : Word) (kept : List Bool) (beatSent : Bool)
  /-- the host reads a word of ERR (R52) -/
  | hostRead (a : ErrAddr)
  /-- the host writes a word of ERR (R52) -/
  | hostWrite (a : ErrAddr) (v : F64)
  /-- from now on the host takes the beats of OUT as they come (`true`), or withholds the acceptance of the next beat
  (`false`) (R46, R119, R155 (e); U13) -/
  | outReady (ready : Bool)
deriving DecidableEq, Repr

/-- The size a frame began with: the `W <- WIDTH; H <- HEIGHT` of START (R114). -/
structure FrameSize where
  w : Dim
  h : Dim
deriving DecidableEq, Repr

/-- The block (its registers and ROMs, R21, R30) and what stands beside it (R31): the error memory, and the ports as the
environment sees them. -/
structure State where
  /-- the seven registers (R21) -/
  regs : Regs
  /-- the two ROMs (R30); no step writes them (R107) -/
  roms : Roms
  /-- the error memory ERR (R40, R41), beside the block (R31 (d)) -/
  err : Memory
  /-- events the outside has offered and the block has not yet taken, oldest first (R61; log entries 1, 2) -/
  input : List Input
  /-- the beats sent on OUT so far, oldest first (R46; log entry 10) -/
  out : List Beat
  /-- the accesses issued on the error-memory port so far, oldest first (log entry 10) -/
  errTrace : List ErrAccess
  /-- the host takes beats as they come (R155 (e); log entry 21) -/
  outReady : Bool
  /-- the beat of a PIXEL that is still in progress, because the host has not taken it: the block holds (R118, R119,
  R155 (e); log entry 21) -/
  heldBeat : Option Beat
  /-- the size the last START since reset began its frame with (R114). History only: no step reads it; R33 (b) speaks of
  it (log entry 9) -/
  frame : Option FrameSize
deriving DecidableEq, Repr

/-- Reasons for which the machine itself would stop with a fault. The spec gives none: each of its faults (R130) is
TAKEN, a next state (R131), and ERROR is a state in which commands are accepted without effect (R136). So this type has
no constructor, and no step ends in a fault. -/
inductive Fault
deriving DecidableEq, Repr

/-- Reasons for which a step has no meaning. -/
inductive Refusal
  /-- raised by an arm of `exec` whose instruction has no meaning yet (none is left). Safe: the model stops where the
  hardware goes on. -/
  | notModelled (mnemonic : String)
  /-- raised by an input that accesses the buffer's words in ERR from outside while a frame is in progress: "the model
  gives no meaning to the run" (R53, R52; U9: `refuse`; log entry 15). Safe: nothing is claimed of such a run. -/
  | foreignErrAccess
deriving DecidableEq, Repr

/-- The machine right after reset (R34, R150), power-up being a reset (R151): the registers at their reset values, the
ROMs holding the block's tables, nothing known of ERR, no port event yet, a host that takes beats, no frame begun. -/
def State.reset : State where
  regs := Regs.reset
  roms := Config.roms
  err := []
  input := []
  out := []
  errTrace := []
  outReady := true
  heldBeat := none
  frame := none

end Sys2Proof.Machine
end

