-- ==== Sys2Proof/Machine/Memory.lean ====
section
/-! DEFINITION. The error memory as bytes and as 64-bit words (spec/20_memory.md R40, R44, R45, R48), and its canonical
form. -/

namespace Sys2Proof.Machine

/-- The bytes ERR occupies: 2^32 words of 8 bytes (R40, R45). -/
def errBytes : Nat := 2 ^ 35

/-- The canonical form: addresses strictly rising, all inside ERR. (An unlisted byte holds no value, so no listed byte
can equal what an unlisted one holds.) -/
def Memory.wf (m : Memory) : Bool :=
  decide (m.Pairwise (fun x y => x.1 < y.1)) && m.all (fun x => decide (x.1 < errBytes))

/-- The byte written last at byte address `b`, or none if nothing has written it since power-up. -/
def Memory.written (m : Memory) (b : Nat) : Option Byte :=
  match m with
  | [] => none
  | (k, v) :: rest => if k = b then some v else Memory.written rest b

/-- What an unlisted byte reads as: unspecified after power-up, any value (R34, R151, U5; log entry 4). -/
def Memory.unlisted (b : Nat) : Byte := Config.errPowerUp b

/-- The read of one byte. -/
def Memory.readByte (m : Memory) (b : Nat) : Byte := (Memory.written m b).getD (Memory.unlisted b)

/-- The write of one byte, at its place in the rising order. -/
def Memory.writeByte (m : Memory) (b : Nat) (v : Byte) : Memory :=
  match m with
  | [] => [(b, v)]
  | (k, x) :: rest =>
    if b < k then (b, v) :: (k, x) :: rest
    else if b = k then (b, v) :: rest
    else (k, x) :: Memory.writeByte rest b v

/-- The byte address of word `a` (R45): byte offset 8*a. -/
def byteAddr (a : ErrAddr) : Nat := 8 * a.toNat

/-- The whole 64-bit word `a`, little-endian (R45, R48). -/
def Memory.readWord (m : Memory) (a : ErrAddr) : F64 :=
  let b := byteAddr a
  m.readByte (b + 7) ++ m.readByte (b + 6) ++ m.readByte (b + 5) ++ m.readByte (b + 4)
    ++ m.readByte (b + 3) ++ m.readByte (b + 2) ++ m.readByte (b + 1) ++ m.readByte b

/-- Byte `i` of a word, byte 0 the least significant. -/
def wordByte (v : F64) (i : Nat) : Byte := v.extractLsb' (8 * i) 8

/-- The write of the whole word `a`, little-endian (R45, R48). -/
def Memory.writeWord (m : Memory) (a : ErrAddr) (v : F64) : Memory :=
  [0, 1, 2, 3, 4, 5, 6, 7].foldl (fun m i => m.writeByte (byteAddr a + i) (wordByte v i)) m

/-- All eight bytes of word `a` have been written since power-up. -/
def Memory.wordWritten (m : Memory) (a : ErrAddr) : Bool :=
  [0, 1, 2, 3, 4, 5, 6, 7].all (fun i => (Memory.written m (byteAddr a + i)).isSome)

end Sys2Proof.Machine
end

