-- ==== Sys2Proof/Machine/Ops.lean ====
section
/-! DEFINITION. The shared operations: the cell address and the port primitives (spec/20_memory.md R41, R46, R49, R50),
taking a fault (spec/60_exceptions.md R131) and leaving the fault state by reset (R136, spec/70_reset_and_hazards.md
R150), and what the outside does to ERR (R52). -/

namespace Sys2Proof.Machine

/-- What one step answers. -/
abbrev Result := Host.Outcome State Fault Refusal

/-! ### The error-memory port -/

/-- `a(r, c) = r * (W + 1) + c` (R41); it fits 32 bits for all 16-bit operands (R43). -/
def cellAddr (w r c : Nat) : ErrAddr := BitVec.ofNat 32 (r * (w + 1) + c)

/-- The addresses of the image cells (R42) in raster order (R14). -/
def imageCells (w h : Nat) : List ErrAddr :=
  (List.range h).flatMap (fun r => (List.range w).map (fun c => cellAddr w r c))

/-- `ErrRead(a)` (R49): the f64 held at word `a`; it has no effect but the access itself (R48). -/
def errRead (a : ErrAddr) (s : State) : F64 × State :=
  (s.err.readWord a, { s with errTrace := s.errTrace ++ [.read a] })

/-- `ErrWrite(a, v)` (R49). -/
def errWrite (a : ErrAddr) (v : F64) (s : State) : State :=
  { s with err := s.err.writeWord a v, errTrace := s.errTrace ++ [.write a v] }

/-- `ErrAdd(a, t)` (R50): one read, then one write of the same word. -/
def errAdd (a : ErrAddr) (t : F64) (s : State) : State :=
  let (v, s) := errRead a s
  errWrite a (add64 v t) s

/-! ### The output port -/

/-- `Emit(b)` (R12, R46). -/
def emit (b : Beat) (s : State) : State := { s with out := s.out ++ [b] }

/-! ### Faults -/

/-- Fault entry (R131): STATE <- ERROR, CAUSE <- cause, ERRCMD <- cmd, and nothing else. -/
def takeFault (cause : Cause) (cmd : Word) (s : State) : State :=
  { s with regs := { s.regs with state := .error, cause := cause, errcmd := cmd } }

/-- `raise Fault(cause)` ends the command (R12). -/
def raise (cause : Cause) (cmd : Word) (s : State) : Result := .next (takeFault cause cmd s)

/-- "if STATE = ERROR: return" (R110): in ERROR a command word has no effect (R136). -/
def unlessError (s : State) (command : Result) : Result :=
  if s.regs.state = .error then .next s else command

/-- A word with a reserved opcode (R65, R110). -/
def execIllegalOpcode (cmd : Word) (s : State) : Result :=
  unlessError s (raise .illegalOpcode cmd s)

/-- A word with an assigned opcode and reserved bits set (R65, R110). -/
def execReservedField (cmd : Word) (s : State) : Result :=
  unlessError s (raise .reservedField cmd s)

/-! ### Reset -/

/-- Reset (R150): every register at its reset value; the ROMs and ERR are untouched. A PIXEL that holds for its beat is
abandoned, its beat not sent: the output port then "holds no pending beat" (R34). Words not yet accepted stay offered
(R61), and what the ports have shown stays shown. -/
def resetBlock (s : State) : State := { s with regs := Regs.reset, heldBeat := none, frame := none }

/-- The elements of a list that a mask keeps; those past the mask's end are not kept. -/
def keepBy {α : Type} : List Bool → List α → List α
  | true :: mask, x :: xs => x :: keepBy mask xs
  | false :: mask, _ :: xs => keepBy mask xs
  | [], _ => []
  | _, [] => []

/-- The memory after the writes among some accesses, in order. -/
def applyWrites (accesses : List ErrAccess) (m : Memory) : Memory :=
  accesses.foldl (fun m access =>
    match access with
    | .read _ => m
    | .write a v => m.writeWord a v) m

/-- The accesses a command issued, from the states before and after it. -/
def issued (before after : State) : List ErrAccess :=
  after.errTrace.drop before.errTrace.length

/-- A reset that lands while a command executes (R150): the command, which would have led from `before` to `after`, is
abandoned; the registers take their reset values; any subset of its ERR accesses was performed, each wholly or not at
all, and its beat was sent or not (U8, log entry 11). -/
def abandon (before after : State) (kept : List Bool) (beatSent : Bool) : State :=
  let performed := keepBy kept (issued before after)
  { resetBlock before with
    err := applyWrites performed before.err
    errTrace := before.errTrace ++ performed
    out := if beatSent then after.out else before.out }

/-! ### Accepting the events of the outside -/

/-- The event is a command word, which the block accepts only when no command is in progress (R61, R118). -/
def Input.isWord : Input → Bool
  | .command _ => true
  | .resetDuring _ _ _ => true
  | .reset => false
  | .hostRead _ => false
  | .hostWrite _ _ => false
  | .outReady _ => false

/-- The oldest event that can be taken, with the events left after it: the oldest of all or, while the block holds
(`holding`), the oldest that is no word, since the words on CMD are held off (R61, R155 (e)). -/
def takeable (holding : Bool) : List Input → Option (Input × List Input)
  | [] => none
  | event :: rest =>
    if holding && event.isWord then (takeable holding rest).map (fun x => (x.1, event :: x.2))
    else some (event, rest)

/-- The event the next step takes, and the events left. -/
def State.nextEvent (s : State) : Option (Input × List Input) := takeable s.heldBeat.isSome s.input

/-! ### The outside and ERR -/

/-- Word `a` belongs to the buffer of the frame in progress (R41, R52): while STATE = RUN no agent but the block may
access it. -/
def owned (s : State) (a : ErrAddr) : Bool :=
  decide (s.regs.state = .run)
    && decide (a.toNat < (s.regs.height.toNat + 1) * (s.regs.width.toNat + 1))

/-- The host reads word `a` of ERR: it gets `s.err.readWord a`, and nothing changes (R48, R52). -/
def hostRead (a : ErrAddr) (s : State) : Result :=
  if owned s a then .refused .foreignErrAccess else .next s

/-- The host writes word `a` of ERR (R52); this is no access of the block's port. -/
def hostWrite (a : ErrAddr) (v : F64) (s : State) : Result :=
  if owned s a then .refused .foreignErrAccess else .next { s with err := s.err.writeWord a v }

end Sys2Proof.Machine
end

