-- ==== Sys2Proof/Machine/Tables.lean ====
section
/-! DEFINITION. The coefficient and modulation table lookups (spec/42_tables.md R100, R101) and the ROM word formats
(R106). -/

namespace Sys2Proof.Machine

/-- `CoefRead(i) = COEF_TABLE[i]` (R100): every 8-bit index has an entry. -/
def coefRead (roms : Roms) (i : Pix) : CoefRow :=
  roms.tables.coef[i.toNat]'(by rw [roms.coef_length]; exact i.isLt)

/-- `ModRead(i) = MOD_TABLE[i]` (R101): every 8-bit index has an entry. -/
def modRead (roms : Roms) (i : Pix) : F64 :=
  roms.tables.strength[i.toNat]'(by rw [roms.strength_length]; exact i.isLt)

/-- Coefficient ROM word `i` = {csum, cd, cdl, cr}, each field COEF_BITS wide (R106). -/
def coefRomWord (roms : Roms) (i : Pix) : BitVec (4 * roms.tables.coefBits) :=
  let k := roms.tables.coefBits
  let row := coefRead roms i
  BitVec.ofNat _ (row.cr + row.cdl * 2 ^ k + row.cd * 2 ^ (2 * k) + row.csum * 2 ^ (3 * k))

/-- The record a coefficient ROM word of fields `k` wide holds (R106). -/
def coefRowOfRomWord (k : Nat) (word : BitVec (4 * k)) : CoefRow where
  cr := (word.extractLsb' 0 k).toNat
  cdl := (word.extractLsb' k k).toNat
  cd := (word.extractLsb' (2 * k) k).toNat
  csum := (word.extractLsb' (3 * k) k).toNat

/-- Modulation ROM word `i`: the binary64 pattern of MOD_TABLE[i] (R106). -/
def modRomWord (roms : Roms) (i : Pix) : BitVec 64 := modRead roms i

end Sys2Proof.Machine
end

