-- ==== Sys2Proof/Machine/Distributor.lean ====
section
/-! DEFINITION. The error accumulator (spec/41_error_distributor.md R90 to R95). -/

namespace Sys2Proof.Machine

/-- The three terms of a pixel (R90). -/
structure Terms where
  right : F64
  downLeft : F64
  down : F64
deriving DecidableEq, Repr

/-- One term: diff * w / csum, the product rounded first (R90, D8). -/
def weightedTerm (diff : F64) (weight csum : Nat) : F64 := div64 (mul64 diff (f64 weight)) (f64 csum)

/-- The three terms for a residual and a coefficient record (R90). -/
def termsOf (row : CoefRow) (diff : F64) : Terms where
  right := weightedTerm diff row.cr row.csum
  downLeft := weightedTerm diff row.cdl row.csum
  down := weightedTerm diff row.cd row.csum

/-- The residual diff = x - out of the UNCLAMPED corrected level (R92, C3). -/
def residualOf (x : F64) (out : Nat) : F64 := sub64 x (f64 out)

/-- The additions of pixel (r, c) in a W by H frame, in order: right, down-left, down, each only if its target is an image
cell (R90, R93, C1). -/
def additions (w h r c : Nat) (t : Terms) : List (ErrAddr × F64) :=
  (if c + 1 < w then [(cellAddr w r (c + 1), t.right)] else [])
    ++ (if r + 1 < h ∧ 1 ≤ c then [(cellAddr w (r + 1) (c - 1), t.downLeft)] else [])
    ++ (if r + 1 < h then [(cellAddr w (r + 1) c, t.down)] else [])

/-- ErrAdds one after the other. -/
def addAll (adds : List (ErrAddr × F64)) (s : State) : State :=
  adds.foldl (fun s x => errAdd x.1 x.2 s) s

/-- `DISTRIB(diff, p, r, c)` (R90): the coefficient row is selected by the original intensity p (R91). -/
def distrib (diff : F64) (p : Pix) (r c : Nat) (s : State) : State :=
  addAll (additions s.regs.width.toNat s.regs.height.toNat r c (termsOf (coefRead s.roms p) diff)) s

end Sys2Proof.Machine
end

