-- ==== Sys2Proof/Machine/Threshold.lean ====
section
/-! DEFINITION. The threshold modulator (spec/40_threshold.md R80 to R86). -/

namespace Sys2Proof.Machine

/-- Step 1 (R80): the corrected level clamped to [0, 255]. -/
def clampLevel (x : F64) : F64 := min64 (max64 x posZero) val255

/-- Step 2 (R80, R81): the clamped level floored, 0..255. -/
def levelIndex (x : F64) : Pix := BitVec.ofNat 8 (floor64 (clampLevel x))

/-- The noise residue k = n mod 128 (R82). -/
def noiseResidue (n : Pix) : Nat := n.toNat % 128

/-- Steps 3 and 4 (R80): thr = 128 + k * M, the product rounded first. -/
def thresholdOf (strength : F64) (n : Pix) : F64 :=
  add64 val128 (mul64 (f64 (noiseResidue n)) strength)

/-- The threshold for the corrected level `x`. -/
def thresholdAt (roms : Roms) (x : F64) (n : Pix) : F64 :=
  thresholdOf (modRead roms (levelIndex x)) n

/-- `THRESH(x, n)` (R80), the output level, 0 or 255. Step 5 compares the clamped level (C3). -/
def thresh (roms : Roms) (x : F64) (n : Pix) : Nat :=
  if ge64 (clampLevel x) (thresholdAt roms x n) then 255 else 0

end Sys2Proof.Machine
end

