-- ==== Sys2Proof/Machine/Pixel.lean ====
section
/-! DEFINITION. The command PIXEL (spec/43_commands.md R116, R117): the source's per-cell step. -/

namespace Sys2Proof.Machine

/-- The address of the cell the next PIXEL processes, a(ROW, COL) (R25, R41, R116). -/
def currentCell (s : State) : ErrAddr :=
  cellAddr s.regs.width.toNat s.regs.row.toNat s.regs.col.toNat

/-- The corrected level x = f64(p) + e (R116). -/
def correctedLevel (p : Pix) (e : F64) : F64 := add64 (f64 p.toNat) e

/-- The beat for an output level (R116, R46). -/
def beatOf (out : Nat) : Beat := if out = 255 then 0xFF else 0x00

/-- The registers after the position advance (R117). -/
def advanceRegs (r : Regs) : Regs :=
  if r.col.toNat + 1 < r.width.toNat then
    { r with col := BitVec.ofNat 16 (r.col.toNat + 1) }
  else
    { r with
      col := 0
      row := BitVec.ofNat 16 (r.row.toNat + 1)
      state := if r.row.toNat + 1 = r.height.toNat then .done else r.state }

/-- `advance(r, c)` (R117), the last step of a PIXEL that did not fault. -/
def advance (s : State) : State := { s with regs := advanceRegs s.regs }

/-- The end of a PIXEL whose beat the host takes (R116): emit, advance. -/
def finishPixel (b : Beat) (s : State) : State := advance (emit b s)

/-- The beat offered on OUT: taken at once, which ends the PIXEL, or withheld, and then the block holds with the PIXEL in
progress (R118, R119, R155 (e)). -/
def offerBeat (b : Beat) (s : State) : State :=
  if s.outReady then finishPixel b s else { s with heldBeat := some b }

/-- The host begins or ceases to take beats; taking the held one ends its PIXEL (U13: the hold "is not final"). -/
def setOutReady (ready : Bool) (s : State) : State :=
  match s.heldBeat with
  | none => { s with outReady := ready }
  | some b =>
    if ready then finishPixel b { s with outReady := true, heldBeat := none } else { s with outReady := false }

/-- A pixel step whose corrected level is `x`, finite (R116): decide, distribute, emit, advance. -/
def pixelStep (p n : Pix) (x : F64) (s : State) : State :=
  let out := thresh s.roms x n
  let s := distrib (residualOf x out) p s.regs.row.toNat s.regs.col.toNat s
  offerBeat (beatOf out) s

/-- PIXEL p, n (R116). -/
def execPixel (p n : Pix) (s : State) : Result :=
  unlessError s
    (if s.regs.state ≠ .run then raise .badState (encode (.pixel p n)) s
    else
      let (e, s) := errRead (currentCell s) s
      let x := correctedLevel p e
      if isFinite x then .next (pixelStep p n x s)
      else raise .nonfinite (encode (.pixel p n)) s)

end Sys2Proof.Machine
end

