-- ==== Sys2Proof/Machine/Setup.lean ====
section
/-! DEFINITION. The commands NOP, SETW, SETH and START (spec/43_commands.md R111 to R115). Each begins with the ERROR check
of R110; the word a fault records is the command's own, `encode` (R131, log entry 14). -/

namespace Sys2Proof.Machine

/-- NOP (R111): nothing. -/
def execNop (s : State) : Result := unlessError s (.next s)

/-- SETW w (R112). -/
def execSetw (w : Dim) (s : State) : Result :=
  unlessError s
    (if s.regs.state = .run then raise .badState (encode (.setw w)) s
    else .next { s with regs := { s.regs with width := w } })

/-- SETH h (R113). -/
def execSeth (h : Dim) (s : State) : Result :=
  unlessError s
    (if s.regs.state = .run then raise .badState (encode (.seth h)) s
    else .next { s with regs := { s.regs with height := h } })

/-- The clearing writes of START (R114): +0.0 to every image cell, in raster order. -/
def clearCells (w h : Nat) (s : State) : State :=
  (imageCells w h).foldl (fun s a => errWrite a posZero s) s

/-- The registers START leaves (R114, R115): scan position (0, 0); DONE for a degenerate frame, else RUN. -/
def startRegs (r : Regs) : Regs :=
  { r with row := 0, col := 0, state := if r.width = 0 ∨ r.height = 0 then .done else .run }

/-- START (R114, R115). -/
def execStart (s : State) : Result :=
  unlessError s
    (if s.regs.state = .run then raise .badState (encode .start) s
    else
      let s := clearCells s.regs.width.toNat s.regs.height.toNat s
      .next { s with regs := startRegs s.regs, frame := some ⟨s.regs.width, s.regs.height⟩ })

end Sys2Proof.Machine
end

