-- ==== Sys2Proof/Machine/Dispatch.lean ====
section
/-! DEFINITION. The dispatch of a decoded command to its meaning (spec/43_commands.md R110). -/

namespace Sys2Proof.Machine

def exec (i : Instr) (s : State) : Host.Outcome State Fault Refusal :=
  match i with
  | .nop => Sys2Proof.Machine.execNop s
  | .setw w => Sys2Proof.Machine.execSetw w s
  | .seth h => Sys2Proof.Machine.execSeth h s
  | .start => Sys2Proof.Machine.execStart s
  | .pixel p n => Sys2Proof.Machine.execPixel p n s

end Sys2Proof.Machine
end

