-- ==== Sys2Proof/Machine/Step.lean ====
section
/-! DEFINITION. One step: the block takes the oldest event of the outside that it can take (spec/30_encoding.md R61,
spec/70_reset_and_hazards.md R150, R155; log entries 1, 2, 21), or waits if there is none (spec/60_exceptions.md R143). -/

namespace Sys2Proof.Machine

/-- An accepted command word (R110): decode, then execute. -/
def execWord (cmd : Word) (s : State) : Result :=
  match decode cmd with
  | .instr i => exec i s
  | .illegalOpcode => execIllegalOpcode cmd s
  | .reservedField => execReservedField cmd s

/-- A command word during whose execution reset lands (R150). -/
def execWordAbandoned (cmd : Word) (kept : List Bool) (beatSent : Bool) (s : State) : Result :=
  match execWord cmd s with
  | .next after => .next (abandon s after kept beatSent)
  | .fault r => .fault r
  | .refused r => .refused r

/-- The effect of one event, already taken from the input. -/
def takeInput (event : Input) (s : State) : Result :=
  match event with
  | .command cmd => execWord cmd s
  | .reset => .next (resetBlock s)
  | .resetDuring cmd kept beatSent => execWordAbandoned cmd kept beatSent s
  | .hostRead a => hostRead a s
  | .hostWrite a v => hostWrite a v s
  | .outReady ready => .next (setOutReady ready s)

/-- One step of the machine. With nothing to take it answers the same state: the block waits for the next word (R143), or
holds for its beat to be taken (R119, R155 (e); U13: `stuck`). -/
def step (s : State) : Host.Outcome State Fault Refusal :=
  match s.nextEvent with
  | none => .next s
  | some (event, rest) => takeInput event { s with input := rest }

/-- `s` with a command word offered next: the block fetches from no memory (R57), it takes the word at the head of CMD
(R61), so that is where the word goes. A block that holds for a beat accepts no word, so none is held. -/
def State.withFetchWord (s : State) (nbits w : Nat) : State :=
  { s with input := .command (tableWord nbits w) :: s.input, heldBeat := none }

end Sys2Proof.Machine
end

