-- ==== Sys2Proof/WellFormed.lean ====
section
/-! DEFINITION. Well-formedness. A term of `Instr` is well formed by its type: each operand has exactly the width of its
field (spec/30_encoding.md R63). What can be ill formed is a line of assembler source: "An operand out of range is an
assembly error" (R68). -/

namespace Sys2Proof

/-- The operand ranges of R68; a raw word fits 32 bits (R60). -/
def AsmLine.wellFormed : AsmLine → Bool
  | .nop => true
  | .setw w => decide (w ≤ 65535)
  | .seth h => decide (h ≤ 65535)
  | .start => true
  | .pixel p n => decide (p ≤ 255) && decide (n ≤ 255)
  | .frame w h => decide (w ≤ 65535) && decide (h ≤ 65535)
  | .word v => decide (v < 2 ^ 32)
  | .blank => true

end Sys2Proof
end

