-- ==== Sys2Proof/Machine/Assembler.lean ====
section
/-! DEFINITION. The assembler (spec/30_encoding.md R68, R69; D28): source lines to command words. It is no part of the
block; it says which words a source text stands for. -/

namespace Sys2Proof.Machine

/-- FRAME w, h expands exactly to SETW w, SETH h, START (R69). -/
def frameCommands (w h : Dim) : List Instr := [.setw w, .seth h, .start]

/-- The words of a line whose operands are in range. -/
def lineWords : AsmLine → List Word
  | .nop => [encode .nop]
  | .setw w => [encode (.setw (BitVec.ofNat 16 w))]
  | .seth h => [encode (.seth (BitVec.ofNat 16 h))]
  | .start => [encode .start]
  | .pixel p n => [encode (.pixel (BitVec.ofNat 8 p) (BitVec.ofNat 8 n))]
  | .frame w h => (frameCommands (BitVec.ofNat 16 w) (BitVec.ofNat 16 h)).map encode
  | .word v => [BitVec.ofNat 32 v]
  | .blank => []

/-- "An operand out of range is an assembly error; the assembler emits no word" (R68). -/
def assemble (line : AsmLine) : Option (List Word) :=
  if line.wellFormed then some (lineWords line) else none

/-! ### Source text (R68). What R68 leaves open of the text's form is log entry 17. -/

def isBlank (c : Char) : Bool := c == ' ' || c == '\t'

def skipBlanks (cs : List Char) : List Char := cs.dropWhile isBlank

/-- Without blanks at either end. -/
def trimBlanks (cs : List Char) : List Char := (skipBlanks (skipBlanks cs).reverse).reverse

/-- The text up to a comment: "Text from `;` to the end of the line is a comment" (R68). -/
def dropComment (cs : List Char) : List Char := cs.takeWhile (fun c => c != ';')

/-- The pieces between commas. -/
def splitCommas : List Char → List (List Char)
  | [] => [[]]
  | c :: cs =>
    if c == ',' then [] :: splitCommas cs
    else match splitCommas cs with
      | [] => [[c]]
      | piece :: rest => (c :: piece) :: rest

/-- The value of a digit in a base up to 16; the letters of a hexadecimal digit in either case. -/
def digitValue (base : Nat) (c : Char) : Option Nat :=
  let v :=
    if '0'.toNat ≤ c.toNat ∧ c.toNat ≤ '9'.toNat then c.toNat - '0'.toNat
    else if 'A'.toNat ≤ c.toNat ∧ c.toNat ≤ 'F'.toNat then c.toNat - 'A'.toNat + 10
    else if 'a'.toNat ≤ c.toNat ∧ c.toNat ≤ 'f'.toNat then c.toNat - 'a'.toNat + 10
    else base
  if v < base then some v else none

/-- One or more digits, most significant first. -/
def parseDigits (base : Nat) (cs : List Char) : Option Nat :=
  if cs.isEmpty then none
  else cs.foldl (fun acc c => do
    let n ← acc
    let d ← digitValue base c
    return n * base + d) (some 0)

/-- "Operands are decimal, or hexadecimal with a `0x` prefix" (R68). -/
def parseNumber : List Char → Option Nat
  | '0' :: 'x' :: digits => parseDigits 16 digits
  | digits => parseDigits 10 digits

/-- The operands after a mnemonic: none, or numbers separated by commas. -/
def parseOperands (cs : List Char) : Option (List Nat) :=
  if (trimBlanks cs).isEmpty then some []
  else (splitCommas cs).mapM (fun piece => parseNumber (trimBlanks piece))

/-- One line of source text. -/
def parseLine (text : List Char) : Option AsmLine := do
  let body := trimBlanks (dropComment text)
  let mnemonic := body.takeWhile (fun c => !isBlank c)
  let operands ← parseOperands (body.drop mnemonic.length)
  match mnemonic, operands with
  | [], [] => some .blank
  | ['N', 'O', 'P'], [] => some .nop
  | ['S', 'E', 'T', 'W'], [w] => some (.setw w)
  | ['S', 'E', 'T', 'H'], [h] => some (.seth h)
  | ['S', 'T', 'A', 'R', 'T'], [] => some .start
  | ['P', 'I', 'X', 'E', 'L'], [p, n] => some (.pixel p n)
  | ['F', 'R', 'A', 'M', 'E'], [w, h] => some (.frame w h)
  | ['.', 'w', 'o', 'r', 'd'], [v] => some (.word v)
  | _, _ => none

/-- The words of one line of source text; none is an assembly error. -/
def assembleText (text : List Char) : Option (List Word) :=
  (parseLine text).bind assemble

end Sys2Proof.Machine
end

