-- ==== Sys2Proof/Machine/Flags.lean ====
section
/-! DEFINITION. The status view of the registers (spec/10_state.md R22, R26, R28, R29) and the two level outputs
(spec/60_exceptions.md R134). The block has no condition codes and no arithmetic flags (R28). -/

namespace Sys2Proof.Machine

/-- The 2-bit encoding of STATE (R22). -/
def SeqState.code : SeqState → BitVec 2
  | .idle => 0
  | .run => 1
  | .done => 2
  | .error => 3

/-- The 4-bit cause code (R130). -/
def Cause.code : Cause → BitVec 4
  | .none => 0
  | .illegalOpcode => 1
  | .reservedField => 2
  | .badState => 3
  | .nonfinite => 4

/-- STATUS[8]: 1 iff STATE = DONE (R28). -/
def Regs.doneBit (r : Regs) : Bool := decide (r.state = .done)

/-- STATUS[9]: 1 iff STATE = ERROR (R28). -/
def Regs.errBit (r : Regs) : Bool := decide (r.state = .error)

/-- The STATUS word (R28): [1:0] STATE, [3:2] 0, [7:4] CAUSE, [8] DONE, [9] ERR, [31:10] 0. -/
def Regs.status (r : Regs) : BitVec 32 :=
  0#22 ++ BitVec.ofBool r.errBit ++ BitVec.ofBool r.doneBit ++ r.cause.code ++ 0#2 ++ r.state.code

/-- DONE_OUT = STATUS[8] (R134). -/
def Regs.doneOut (r : Regs) : Bool := r.status.getLsbD 8

/-- ERR_OUT = STATUS[9] (R134). -/
def Regs.errOut (r : Regs) : Bool := r.status.getLsbD 9

/-- What the host may observe between two commands (R29, R134). -/
structure Observation where
  status : BitVec 32
  width : Dim
  height : Dim
  row : Dim
  col : Dim
  errcmd : Word
  doneOut : Bool
  errOut : Bool
deriving DecidableEq, Repr

/-- What the registers show. -/
def Regs.observe (r : Regs) : Observation where
  status := r.status
  width := r.width
  height := r.height
  row := r.row
  col := r.col
  errcmd := r.errcmd
  doneOut := r.doneOut
  errOut := r.errOut

/-- Observation reads the registers and changes nothing (R29). While a command is in progress, as a PIXEL whose beat the
host withholds, what the outputs show is unspecified (R29, U7): none. -/
def State.observe (s : State) : Option Observation :=
  if s.heldBeat.isSome then none else some s.regs.observe

end Sys2Proof.Machine
end

