-- ==== Sys2Proof/Safety.lean ====
section
/-! DEFINITION. The terms in which claims speak: the fault-free state, the invariant of the block (spec/10_state.md R33,
spec/20_memory.md R53, R46, spec/41_error_distributor.md R94) and the frame function (spec/43_commands.md R121). Nothing
here is used by the machine. -/

namespace Sys2Proof

open Machine

/-! ### States -/

/-- No fault has been taken since reset. ERROR is left only by reset (R136), so a run that holds no reset and ends in such
a state took no fault on the way. -/
def Machine.State.FaultFree (s : State) : Prop := s.regs.state ≠ .error

/-- -0.0, which no cell of a running frame holds (R94). -/
def negZero : F64 := 0x8000000000000000#64

/-- R33 (b) word for word, W and H being the registers WIDTH and HEIGHT (R13). SETW and SETH in DONE change these under
the position (R112, R113), so in this reading it is no invariant of the machine: log entry 9. `State.FrameOver` is R33 (b)
of the frame that ended. -/
def Machine.Regs.FrameEnd (r : Regs) : Prop :=
  r.state = .done →
    (r.row = r.height ∧ r.col = 0 ∧ 1 ≤ r.width.toNat ∧ 1 ≤ r.height.toNat)
      ∨ (r.row = 0 ∧ r.col = 0 ∧ r.width.toNat * r.height.toNat = 0)

/-- R33 (a), (c), (d), (e), and of (b) what SETW and SETH keep (log entry 9). -/
structure Machine.Regs.Inv (r : Regs) : Prop where
  run : r.state = .run → 1 ≤ r.width.toNat ∧ 1 ≤ r.height.toNat ∧ r.row < r.height ∧ r.col < r.width
  done : r.state = .done → r.col = 0
  idle : r.state = .idle → r.row = 0 ∧ r.col = 0 ∧ r.cause = .none
  noFault : r.state ≠ .error → r.cause = .none ∧ r.errcmd = 0
  fault : r.state = .error → r.cause ≠ .none

/-- R33 (b), W and H being the size of the frame that ended (log entry 9): in DONE the position is (H, 0) with W, H >= 1, or
(0, 0) with W*H = 0. -/
def Machine.State.FrameOver (s : State) : Prop :=
  s.regs.state = .done →
    ∃ f, s.frame = some f
      ∧ ((s.regs.row = f.h ∧ s.regs.col = 0 ∧ 1 ≤ f.w.toNat ∧ 1 ≤ f.h.toNat)
        ∨ (s.regs.row = 0 ∧ s.regs.col = 0 ∧ f.w.toNat * f.h.toNat = 0))

/-- The size of the frame, as STATE tells it: in IDLE "no frame has been started since reset" (R22); in RUN it is W and H,
which no command changes there (R110); in DONE see `FrameOver`. -/
structure Machine.State.FrameSizeInv (s : State) : Prop where
  idle : s.regs.state = .idle → s.frame = none
  run : s.regs.state = .run → s.frame = some ⟨s.regs.width, s.regs.height⟩
  done : s.FrameOver

/-- While a beat is held its PIXEL is in progress, so STATE = RUN (R116: the position advance comes after the beat), the
host is not taking beats, and the beat is one of the two of R46. What the registers hold meanwhile is the model's choice:
log entry 21. -/
def Machine.State.HoldInv (s : State) : Prop :=
  ∀ b, s.heldBeat = some b → s.regs.state = .run ∧ s.outReady = false ∧ (b = 0x00 ∨ b = 0xFF)

/-- Every image cell of a running frame has been written since power-up (so no PIXEL reads what power-up left, R53, R55,
R151) and does not hold -0.0 (R94). -/
def Machine.State.CellsReady (s : State) : Prop :=
  s.regs.state = .run →
    ∀ r c, r < s.regs.height.toNat → c < s.regs.width.toNat →
      s.err.wordWritten (cellAddr s.regs.width.toNat r c) = true
        ∧ s.err.readWord (cellAddr s.regs.width.toNat r c) ≠ negZero

/-- The invariant that every step keeps. -/
structure Machine.State.Inv (s : State) : Prop where
  /-- the registers (R33) -/
  regs : s.regs.Inv
  /-- the canonical form of the memory -/
  memory : s.err.wf = true
  /-- the cells of a running frame -/
  cells : s.CellsReady
  /-- "No other value is ever sent" (R46) -/
  beats : ∀ b ∈ s.out, b = 0x00 ∨ b = 0xFF
  /-- the size of the frame, R33 (b) with it -/
  frameSize : s.FrameSizeInv
  /-- the held beat (log entry 21) -/
  hold : s.HoldInv

/-! ### The frame function (R121) -/

/-- What a PIXEL command brings for one cell: intensity and noise. -/
structure PixelIn where
  p : Pix
  n : Pix
deriving DecidableEq, Repr

/-- What R121 computes for one cell. -/
structure PixelOut where
  /-- x(r, c), the corrected level -/
  corrected : F64
  /-- O[r][c], the output level -/
  level : Nat
  /-- the terms of (r, c) -/
  terms : Terms
deriving DecidableEq, Repr

/-- One more contribution, if its pixel exists. -/
def contribute (e : F64) (t : Option F64) : F64 :=
  match t with
  | none => e
  | some t => add64 e t

/-- The error e(r, c) (R55): +0.0, then the down term of (r-1, c), the down-left term of (r-1, c+1) and the right term of
(r, c-1), in this order, each if its pixel exists. -/
def cellError (up upRight left : Option PixelOut) : F64 :=
  contribute (contribute (contribute posZero (up.map (·.terms.down))) (upRight.map (·.terms.downLeft)))
    (left.map (·.terms.right))

/-- x, O, diff and the terms of a cell whose error is `e` (R121). -/
def pixelOut (roms : Roms) (e : F64) (q : PixelIn) : PixelOut :=
  let x := correctedLevel q.p e
  let level := thresh roms x q.n
  { corrected := x, level := level, terms := termsOf (coefRead roms q.p) (residualOf x level) }

/-- The cells of one row from some column on: `above` are the results of the row above from that column on, `left` the
result of the column before. -/
def scanRow (roms : Roms) (above : List PixelOut) (left : Option PixelOut) : List PixelIn → List PixelOut
  | [] => []
  | q :: rest =>
    let o := pixelOut roms (cellError above.head? above.tail.head? left) q
    o :: scanRow roms above.tail (some o) rest

/-- The rows from some row on: `above` are the results of the row before (none before row 0). -/
def scanRows (roms : Roms) (above : List PixelOut) : List (List PixelIn) → List (List PixelOut)
  | [] => []
  | row :: rest =>
    let o := scanRow roms above none row
    o :: scanRows roms o rest

/-- The frame function: the beats of a frame, in raster order (R121, R46). -/
def frameBeats (roms : Roms) (rows : List (List PixelIn)) : List Beat :=
  ((scanRows roms [] rows).flatten).map (fun o => beatOf o.level)

/-- The commands of a frame: START, then one PIXEL per cell in raster order (R152). -/
def frameInput (rows : List (List PixelIn)) : List Input :=
  .command (encode .start) :: rows.flatten.map (fun q => .command (encode (.pixel q.p q.n)))

end Sys2Proof
end

