-- ==== Sys2Proof/Certificates/Slice0/Obligations.lean ====
section
/-! DEFINITION. The statements for the provers. Each formalises rules of spec/ that its docstring names; where one rests on
a choice of the model, the docstring says which log entry. -/

open Sys2Proof Sys2Proof.Machine

/-! ### Encoding (spec/30_encoding.md) -/

/-- R62, R63, R64: a word decodes to a command exactly when it is that command's one word; no bit of an encoding is
dropped and no second word is accepted. -/
def Obligations.DecodeIsInverseOfEncode : Prop :=
  ∀ (cmd : Word) (i : Instr), decode cmd = .instr i ↔ cmd = encode i

/-- R65: every word is exactly one of a command, an illegal opcode (OP in 0x5..0xF), or an assigned opcode with reserved
bits set (RSV28 for formats N, RSV12 for formats D and P). -/
def Obligations.EveryWordIsOneOfThree : Prop :=
  ∀ cmd : Word,
    (decode cmd = .illegalOpcode ↔ 5 ≤ cmd.toNat / 2 ^ 28)
      ∧ (decode cmd = .reservedField ↔
          ((cmd.toNat / 2 ^ 28 = 0 ∨ cmd.toNat / 2 ^ 28 = 3) ∧ cmd.toNat % 2 ^ 28 ≠ 0)
            ∨ ((cmd.toNat / 2 ^ 28 = 1 ∨ cmd.toNat / 2 ^ 28 = 2 ∨ cmd.toNat / 2 ^ 28 = 4)
                ∧ cmd.toNat / 2 ^ 16 % 2 ^ 12 ≠ 0))
      ∧ ((∃ i, decode cmd = .instr i) ↔ decode cmd ≠ .illegalOpcode ∧ decode cmd ≠ .reservedField)

/-- R64: the match and mask of each row of the opcode map pick out exactly the words of its command, and the reserved
opcodes belong to none. -/
def Obligations.MaskAndMatchSelectTheCommand : Prop :=
  ∀ cmd : Word,
    (cmd &&& 0xFFFFFFFF#32 = 0x00000000#32 ↔ decode cmd = .instr .nop)
      ∧ (cmd &&& 0xFFFF0000#32 = 0x10000000#32 ↔ ∃ w, decode cmd = .instr (.setw w))
      ∧ (cmd &&& 0xFFFF0000#32 = 0x20000000#32 ↔ ∃ h, decode cmd = .instr (.seth h))
      ∧ (cmd &&& 0xFFFFFFFF#32 = 0x30000000#32 ↔ decode cmd = .instr .start)
      ∧ (cmd &&& 0xFFFF0000#32 = 0x40000000#32 ↔ ∃ p n, decode cmd = .instr (.pixel p n))
      ∧ (5 ≤ cmd.toNat / 2 ^ 28 ↔ decode cmd = .illegalOpcode)

/-- R63: operands are the unsigned fields IMM16 = cmd[15:0], LEVEL = cmd[7:0], NOISE = cmd[15:8], unchanged. -/
def Obligations.OperandsAreTheUnsignedFields : Prop :=
  ∀ cmd : Word,
    (∀ w, decode cmd = .instr (.setw w) → w.toNat = cmd.toNat % 2 ^ 16)
      ∧ (∀ h, decode cmd = .instr (.seth h) → h.toNat = cmd.toNat % 2 ^ 16)
      ∧ (∀ p n, decode cmd = .instr (.pixel p n) →
          p.toNat = cmd.toNat % 2 ^ 8 ∧ n.toNat = cmd.toNat / 2 ^ 8 % 2 ^ 8)

/-- R70: the encoding examples. -/
def Obligations.EncodingExamplesDecode : Prop :=
  decode 0x00000000#32 = .instr .nop
    ∧ decode 0x10000004#32 = .instr (.setw 4)
    ∧ decode 0x20000004#32 = .instr (.seth 4)
    ∧ decode 0x1000FFFF#32 = .instr (.setw 65535)
    ∧ decode 0x30000000#32 = .instr .start
    ∧ decode 0x40000AC8#32 = .instr (.pixel 200 10)
    ∧ decode 0x4000C832#32 = .instr (.pixel 50 200)
    ∧ decode 0x40000000#32 = .instr (.pixel 0 0)
    ∧ decode 0x4000FEFF#32 = .instr (.pixel 255 254)
    ∧ decode 0x50000000#32 = .illegalOpcode
    ∧ decode 0x30000001#32 = .reservedField
    ∧ decode 0x40010000#32 = .reservedField

/-- R69, R68: FRAME w, h assembles to exactly the words of SETW w, SETH h, START; with an operand out of range it is an
error and no word is emitted. -/
def Obligations.FrameExpandsExactly : Prop :=
  ∀ w h : Nat,
    (w ≤ 65535 ∧ h ≤ 65535 →
      assemble (.frame w h) =
        some [encode (.setw (BitVec.ofNat 16 w)), encode (.seth (BitVec.ofNat 16 h)), encode .start])
      ∧ (65535 < w ∨ 65535 < h → assemble (.frame w h) = none)

/-- R68: NOP and START assemble to their one word; what a line of SETW, SETH or PIXEL assembles to decodes to that
command with the operands as written; `.word v` assembles to v; an operand out of range is an error and no word is
emitted. (FRAME is `FrameExpandsExactly`. That a raw word of 2^32 or more is an error, and that a line without a
command, blank or only a comment, is no word, are the model's choices, log entry 17.) -/
def Obligations.AssembledOperandsDecodeBack : Prop :=
  (assemble .nop = some [encode .nop] ∧ assemble .start = some [encode .start] ∧ assemble .blank = some [])
    ∧ (∀ v : Nat, (assemble (.word v) = none ↔ 2 ^ 32 ≤ v)
        ∧ ∀ ws, assemble (.word v) = some ws → ∃ c, ws = [c] ∧ c.toNat = v)
    ∧ ∀ w p n : Nat,
    (assemble (.setw w) = none ↔ 65535 < w)
      ∧ (assemble (.seth w) = none ↔ 65535 < w)
      ∧ (assemble (.pixel p n) = none ↔ 255 < p ∨ 255 < n)
      ∧ (∀ ws, assemble (.setw w) = some ws → ∃ c, ws = [c] ∧ ∃ v, decode c = .instr (.setw v) ∧ v.toNat = w)
      ∧ (∀ ws, assemble (.seth w) = some ws → ∃ c, ws = [c] ∧ ∃ v, decode c = .instr (.seth v) ∧ v.toNat = w)
      ∧ (∀ ws, assemble (.pixel p n) = some ws →
          ∃ c, ws = [c] ∧ ∃ a b, decode c = .instr (.pixel a b) ∧ a.toNat = p ∧ b.toNat = n)

/-! ### The step (spec/30_encoding.md R61, spec/43_commands.md R110, spec/60_exceptions.md) -/

/-- R61, R110: when no beat is held and the word offered next decodes to a command, the step is that command's
execution, with the word taken from the offered events. The queue of offered words is the model's (log entries 1, 2),
and so is the form in which words wait while a beat is held (log entry 21). -/
def Obligations.StepRunsTheDecodedCommand : Prop :=
  ∀ (s : State) (cmd : Word) (rest : List Input) (i : Instr),
    s.heldBeat = none → s.input = .command cmd :: rest → decode cmd = .instr i →
      step s = exec i { s with input := rest }

/-- R65, R130, R131: outside ERROR, an illegal word takes the fault ILLEGAL_OPCODE and a word with reserved bits set the
fault RESERVED_FIELD: STATE, CAUSE and ERRCMD are written and nothing else changes. -/
def Obligations.IllegalWordsTakeTheirFault : Prop :=
  ∀ (s : State) (cmd : Word) (rest : List Input),
    s.heldBeat = none → s.input = .command cmd :: rest → s.regs.state ≠ .error →
      (decode cmd = .illegalOpcode →
        step s = .next { s with
          input := rest
          regs := { s.regs with state := .error, cause := .illegalOpcode, errcmd := cmd } })
        ∧ (decode cmd = .reservedField →
          step s = .next { s with
            input := rest
            regs := { s.regs with state := .error, cause := .reservedField, errcmd := cmd } })

/-- R136, R110: in ERROR every command word is accepted and has no effect, whatever its bits. -/
def Obligations.ErrorStateIgnoresEveryWord : Prop :=
  ∀ (s : State) (cmd : Word) (rest : List Input),
    s.heldBeat = none → s.input = .command cmd :: rest → s.regs.state = .error →
      step s = .next { s with input := rest }

/-- R143: with nothing offered the block waits, and all state survives. The queue of offered events is the model's (log
entries 1, 2). -/
def Obligations.WaitingKeepsAllState : Prop :=
  ∀ s : State, s.input = [] → step s = .next s

/-- R150, R34: reset, also while the block holds for a beat, puts every register at its reset value; the ROMs, ERR and
the beats already sent are untouched, no beat is pending, and STATUS then reads 0. That the beats and accesses already
shown stay in the model's traces is log entry 10; that offered words stay offered is log entry 20. For a reset while a
beat is held (the block's PIXEL abandoned), that its additions stay in ERR, that its beat is not sent, and that the
host's readiness is unchanged are the model's choices, log entry 21; R150 leaves the first two unspecified, and the
other outcomes are those of `resetDuring`, log entry 11. -/
def Obligations.ResetSetsTheRegisters : Prop :=
  ∀ (s : State) (rest : List Input), s.input = .reset :: rest →
    ∃ t, step s = .next t
      ∧ t.regs = { state := .idle, width := 0, height := 0, row := 0, col := 0, cause := .none, errcmd := 0 }
      ∧ t.regs.status = 0
      ∧ t.roms = s.roms ∧ t.err = s.err ∧ t.out = s.out ∧ t.errTrace = s.errTrace ∧ t.input = rest
      ∧ t.heldBeat = none ∧ t.outReady = s.outReady

/-- R150 (U8), R48: a reset that lands while a word executes leaves the registers at their reset values and the ROMs
untouched; every word of ERR holds what it held before or what the completed command would have left, whole; the beats
are those before or those after. The form of the event is log entry 11. -/
def Obligations.ResetDuringACommandIsWholeWordOrNothing : Prop :=
  ∀ (s : State) (cmd : Word) (kept : List Bool) (beatSent : Bool) (rest : List Input),
    s.heldBeat = none → s.input = .resetDuring cmd kept beatSent :: rest →
      ∃ t after, step s = .next t
        ∧ step { s with input := .command cmd :: rest } = .next after
        ∧ t.regs = Regs.reset ∧ t.roms = s.roms ∧ t.input = rest ∧ t.heldBeat = none
        ∧ (∀ a, t.err.readWord a = s.err.readWord a ∨ t.err.readWord a = after.err.readWord a)
        ∧ t.out = (if beatSent then after.out else s.out)

/-- R150 (U8): "a model must admit any of them": for every choice of words there is a reset during the command after
which exactly the chosen words hold what the completed command would have left, and the others what they held before.
The form of the event is log entry 11. -/
def Obligations.ResetDuringACommandAdmitsEverySubset : Prop :=
  ∀ (s : State) (cmd : Word) (rest : List Input) (after : State) (chosen : ErrAddr → Bool) (beatSent : Bool),
    s.heldBeat = none → step { s with input := .command cmd :: rest } = .next after →
      ∃ kept t, step { s with input := .resetDuring cmd kept beatSent :: rest } = .next t
        ∧ (∀ a, t.err.readWord a = if chosen a then after.err.readWord a else s.err.readWord a)
        ∧ t.out = (if beatSent then after.out else s.out)

/-- R52, R53 (U9): while STATE = RUN a foreign access to a word of the buffer, padding included, has no meaning; every
other access of the host has: a read changes nothing, a write stores the whole word and changes no other word. Host
accesses as events are log entry 2, the refusal log entry 15. -/
def Obligations.HostAccessOnlyOutsideTheFrame : Prop :=
  ∀ (s : State) (a : ErrAddr) (v : F64) (rest : List Input),
    (s.regs.state = .run ∧ a.toNat < (s.regs.height.toNat + 1) * (s.regs.width.toNat + 1) →
      (s.input = .hostRead a :: rest → step s = .refused .foreignErrAccess)
        ∧ (s.input = .hostWrite a v :: rest → step s = .refused .foreignErrAccess))
      ∧ (s.regs.state ≠ .run ∨ (s.regs.height.toNat + 1) * (s.regs.width.toNat + 1) ≤ a.toNat →
        (s.input = .hostRead a :: rest → step s = .next { s with input := rest })
          ∧ (s.input = .hostWrite a v :: rest →
            ∃ t, step s = .next t
              ∧ t.regs = s.regs ∧ t.roms = s.roms ∧ t.out = s.out ∧ t.errTrace = s.errTrace ∧ t.input = rest
              ∧ t.heldBeat = s.heldBeat ∧ t.outReady = s.outReady
              ∧ (∀ a', t.err.readWord a' = if a' = a then v else s.err.readWord a')))

/-- R119, R53: the block never stops on its own: no step ends in a fault, and the only step without meaning is a foreign
access to ERR during a frame. The refusal is log entry 15. -/
def Obligations.OnlyAForeignAccessHasNoMeaning : Prop :=
  ∀ s : State,
    (∃ t, step s = .next t)
      ∨ (step s = .refused .foreignErrAccess ∧ s.regs.state = .run
          ∧ ∃ a rest, s.nextEvent = some (.hostRead a, rest) ∨ ∃ v, s.nextEvent = some (.hostWrite a v, rest))

/-! ### Faults (spec/60_exceptions.md R130 to R136) -/

/-- R110, R112, R113, R114, R116, R131: SETW, SETH and START in RUN, and PIXEL in IDLE and DONE, take the fault
BAD_STATE: STATE, CAUSE and ERRCMD (the command's own word) are written and nothing else changes. -/
def Obligations.BadStateFault : Prop :=
  ∀ s : State,
    (s.regs.state = .run → ∀ i, ((∃ w, i = .setw w) ∨ (∃ h, i = .seth h) ∨ i = .start) →
      exec i s = .next { s with regs := { s.regs with state := .error, cause := .badState, errcmd := encode i } })
      ∧ (s.regs.state = .idle ∨ s.regs.state = .done → ∀ p n,
        exec (.pixel p n) s =
          .next { s with
            regs := { s.regs with state := .error, cause := .badState, errcmd := encode (.pixel p n) } })

/-- R116, R130, R132: a PIXEL whose corrected level is an infinity or NaN takes the fault NONFINITE after its one read
and before anything else: no write, no beat, the position unchanged. -/
def Obligations.NonfiniteFault : Prop :=
  ∀ (s : State) (p n : Pix), s.regs.state = .run →
    isFinite (add64 (f64 p.toNat) (s.err.readWord (currentCell s))) = false →
      exec (.pixel p n) s =
        .next { s with
          regs := { s.regs with state := .error, cause := .nonfinite, errcmd := encode (.pixel p n) }
          errTrace := s.errTrace ++ [.read (currentCell s)] }

/-- R132, R131: faults are precise: a word that takes a fault writes STATE, CAUSE and ERRCMD and has no other effect
(the one read of a NONFINITE PIXEL shows in the trace of the port). -/
def Obligations.FaultsArePrecise : Prop :=
  ∀ (s t : State) (cmd : Word), s.regs.state ≠ .error → execWord cmd s = .next t → t.regs.state = .error →
    t.regs = { s.regs with state := .error, cause := t.regs.cause, errcmd := cmd }
      ∧ t.regs.cause ≠ .none
      ∧ t.roms = s.roms ∧ t.err = s.err ∧ t.out = s.out ∧ t.input = s.input
      ∧ t.heldBeat = s.heldBeat ∧ t.outReady = s.outReady
      ∧ (t.errTrace = s.errTrace ∨ (t.regs.cause = .nonfinite ∧ t.errTrace = s.errTrace ++ [.read (currentCell s)]))

/-- R133: a word reports at most one cause, in this order: none in ERROR, ILLEGAL_OPCODE, RESERVED_FIELD, BAD_STATE,
NONFINITE. -/
def Obligations.FaultPriority : Prop :=
  ∀ (s t : State) (cmd : Word), execWord cmd s = .next t →
    (s.regs.state = .error → t = s)
      ∧ (s.regs.state ≠ .error → t.regs.state = .error →
        (5 ≤ cmd.toNat / 2 ^ 28 → t.regs.cause = .illegalOpcode)
          ∧ (decode cmd = .reservedField → t.regs.cause = .reservedField)
          ∧ (∀ i, decode cmd = .instr i →
              (s.regs.state = .run ∧ (∀ p n, i ≠ .pixel p n)) ∨ (s.regs.state ≠ .run ∧ ∃ p n, i = .pixel p n) →
              t.regs.cause = .badState)
          ∧ (∀ i, decode cmd = .instr i → s.regs.state = .run → (∃ p n, i = .pixel p n) → t.regs.cause = .nonfinite))

/-- R136, R26, R27: ERROR is left only by reset, and CAUSE and ERRCMD keep the first fault: in ERROR (where no beat is
held, `HoldInv`) every event but a reset leaves every register, and a command word leaves everything. The events are
those of log entry 2. -/
def Obligations.OnlyResetLeavesError : Prop :=
  ∀ (s t : State), s.HoldInv → s.regs.state = .error → step s = .next t →
    (t.regs = s.regs ∨ (t.regs = Regs.reset ∧
      ∃ rest, s.nextEvent = some (.reset, rest) ∨ ∃ cmd kept b, s.nextEvent = some (.resetDuring cmd kept b, rest)))
      ∧ (∀ cmd rest, s.input = .command cmd :: rest → t = { s with input := rest })

/-! ### The commands (spec/43_commands.md R111 to R120) -/

/-- R111: NOP completes in every state and changes nothing: no register, no port, no memory; its word is 0x00000000, and
that word with reserved bits set is none. -/
def Obligations.NopChangesNothing : Prop :=
  (∀ s : State, exec .nop s = .next s)
    ∧ encode .nop = 0x00000000#32
    ∧ (∀ cmd : Word, cmd.toNat / 2 ^ 28 = 0 → cmd ≠ 0x00000000#32 → decode cmd = .reservedField)

/-- R112, R113: in IDLE and DONE, SETW w and SETH h complete: WIDTH or HEIGHT takes the operand, and STATE, the
position, the other registers, ERR, the ROMs and the ports are unchanged. -/
def Obligations.SetupWritesOneRegister : Prop :=
  ∀ (s : State) (v : Dim), s.regs.state = .idle ∨ s.regs.state = .done →
    exec (.setw v) s = .next { s with regs := { s.regs with width := v } }
      ∧ exec (.seth v) s = .next { s with regs := { s.regs with height := v } }

/-- R114, R42: in IDLE and DONE, START completes: the position is (0, 0); STATE is RUN, or DONE if W or H is 0; every
image cell of ERR reads +0.0 and every byte outside the image cells is unchanged; the writes are issued in raster
order; the other registers, the ROMs and OUT are unchanged. (`frame` records the size: the model's history field, log
entry 9.) -/
def Obligations.StartClearsTheImageCells : Prop :=
  ∀ s : State, s.regs.state = .idle ∨ s.regs.state = .done →
    ∃ t, exec .start s = .next t
      ∧ t.regs = { s.regs with
          row := 0
          col := 0
          state := if s.regs.width = 0 ∨ s.regs.height = 0 then .done else .run }
      ∧ (∀ r c, r < s.regs.height.toNat → c < s.regs.width.toNat →
          t.err.readWord (cellAddr s.regs.width.toNat r c) = 0x0000000000000000#64)
      ∧ (∀ b, (∀ r c, r < s.regs.height.toNat → c < s.regs.width.toNat →
            ¬ (byteAddr (cellAddr s.regs.width.toNat r c) ≤ b ∧ b < byteAddr (cellAddr s.regs.width.toNat r c) + 8)) →
          t.err.readByte b = s.err.readByte b)
      ∧ t.errTrace = s.errTrace
          ++ (imageCells s.regs.width.toNat s.regs.height.toNat).map (fun a => .write a 0x0000000000000000#64)
      ∧ t.roms = s.roms ∧ t.out = s.out ∧ t.input = s.input ∧ t.heldBeat = s.heldBeat ∧ t.outReady = s.outReady
      ∧ t.frame = some ⟨s.regs.width, s.regs.height⟩

/-- R115: a degenerate frame: with W = 0 or H = 0, START makes no ERR access and goes to DONE at (0, 0); a PIXEL that
follows takes the fault BAD_STATE. That `frame` records the size is the model's history field, log entry 9 (DESIGN
CHOICE). -/
def Obligations.DegenerateFrame : Prop :=
  ∀ (s : State) (p n : Pix), s.regs.state = .idle ∨ s.regs.state = .done →
    s.regs.width = 0 ∨ s.regs.height = 0 →
      ∃ t u, exec .start s = .next t
        ∧ t = { s with
            regs := { s.regs with row := 0, col := 0, state := .done }
            frame := some ⟨s.regs.width, s.regs.height⟩ }
        ∧ exec (.pixel p n) t = .next u
        ∧ u.regs.state = .error ∧ u.regs.cause = .badState ∧ u.out = s.out

/-- R116, R90, R80, R46: in RUN a PIXEL whose corrected level x is finite completes when the host takes its beat (for
a beat withheld see `WithheldBeatHoldsTheBlock`). It sends one beat, 0xFF iff THRESH(x, n) is 255; every target of the
pixel's terms holds its old value plus the term; every byte outside the targets is unchanged; the position advances;
the other registers and the ROMs are unchanged. The targets are computed by `additions` from the position and the
size, as the meaning computes them. The fields `outReady`, `heldBeat` and `frame` are the model's (log entries 21, 9).
-/
def Obligations.PixelCompletes : Prop :=
  ∀ (s : State) (p n : Pix) (x : F64) (adds : List (ErrAddr × F64)), s.regs.state = .run → s.outReady = true →
    x = add64 (f64 p.toNat) (s.err.readWord (currentCell s)) → isFinite x = true →
    adds = additions s.regs.width.toNat s.regs.height.toNat s.regs.row.toNat s.regs.col.toNat
      (termsOf (coefRead s.roms p) (sub64 x (f64 (thresh s.roms x n)))) →
      ∃ t, exec (.pixel p n) s = .next t
        ∧ t.out = s.out ++ [if thresh s.roms x n = 255 then 0xFF#8 else 0x00#8]
        ∧ (∀ a tm, (a, tm) ∈ adds → t.err.readWord a = add64 (s.err.readWord a) tm)
        ∧ (∀ b, (∀ a tm, (a, tm) ∈ adds → ¬ (byteAddr a ≤ b ∧ b < byteAddr a + 8)) →
            t.err.readByte b = s.err.readByte b)
        ∧ t.regs = advanceRegs s.regs
        ∧ t.roms = s.roms ∧ t.input = s.input ∧ t.heldBeat = s.heldBeat ∧ t.outReady = true ∧ t.frame = s.frame

/-- R155 (e), R118, R119 (U13): in RUN, a PIXEL whose corrected level is finite and whose beat the host withholds
holds the block: its additions are made, its beat is not sent, the registers are as before. While it holds, words are
not taken: with nothing else offered no step changes anything. Once the host takes the beat, however many words wait
before that event, the PIXEL completes exactly as if the beat had been taken at once, and the words are still offered.
The host's readiness as an event, and what the registers hold meanwhile, is log entry 21. -/
def Obligations.WithheldBeatHoldsTheBlock : Prop :=
  ∀ (s : State) (p n : Pix) (x : F64), s.regs.state = .run → s.outReady = false → s.heldBeat = none →
    x = add64 (f64 p.toNat) (s.err.readWord (currentCell s)) → isFinite x = true →
      ∃ t u, exec (.pixel p n) s = .next t
        ∧ exec (.pixel p n) { s with outReady := true } = .next u
        ∧ t.regs = s.regs ∧ t.out = s.out ∧ t.heldBeat = some (if thresh s.roms x n = 255 then 0xFF#8 else 0x00#8)
        ∧ t.err = u.err ∧ t.errTrace = u.errTrace ∧ t.roms = s.roms ∧ t.input = s.input
        ∧ (∀ words rest : List Input, (∀ e ∈ words, e.isWord = true) →
          step { t with input := words } = .next { t with input := words }
            ∧ step { t with input := words ++ .outReady true :: rest } = .next { u with input := words ++ rest })

/-- R117, R25: the position advance in raster order, of a PIXEL whose beat is taken: COL increments; at the end of a
row COL is 0 and ROW increments, without wrapping; STATE is DONE exactly after the last pixel, at (H, 0). WIDTH,
HEIGHT, CAUSE and ERRCMD are unchanged. Stated for positions inside the frame, which R33 (a) gives in RUN. -/
def Obligations.PositionAdvancesInRasterOrder : Prop :=
  ∀ (s t : State) (p n : Pix), s.regs.state = .run → s.outReady = true →
    s.regs.row < s.regs.height → s.regs.col < s.regs.width → exec (.pixel p n) s = .next t → t.regs.state ≠ .error →
      t.regs.row.toNat * s.regs.width.toNat + t.regs.col.toNat
          = s.regs.row.toNat * s.regs.width.toNat + s.regs.col.toNat + 1
        ∧ (t.regs.state = .done ↔ t.regs.row = s.regs.height)
        ∧ (t.regs.state = .done → t.regs.col = 0)
        ∧ (t.regs.state = .run ↔ t.regs.row < s.regs.height ∧ t.regs.col < s.regs.width)
        ∧ t.regs.width = s.regs.width ∧ t.regs.height = s.regs.height
        ∧ t.regs.cause = s.regs.cause ∧ t.regs.errcmd = s.regs.errcmd

/-- R46: each PIXEL that completes without a fault sends exactly one beat, 0x00 or 0xFF (or, while the host withholds
it, holds exactly that one, log entry 21); every other command, and a PIXEL that faults or stands in ERROR, sends and
holds none. -/
def Obligations.OneBeatPerPixel : Prop :=
  ∀ (s t : State) (i : Instr), exec i s = .next t →
    (t.out = s.out ∧ t.heldBeat = s.heldBeat
        ∧ (s.regs.state = .run ∧ t.regs.state ≠ .error → ∀ p n, i ≠ .pixel p n))
      ∨ ((∃ p n, i = .pixel p n) ∧ s.regs.state = .run ∧ t.regs.state ≠ .error
          ∧ ∃ b, (b = 0x00#8 ∨ b = 0xFF#8)
            ∧ (s.outReady = true → t.out = s.out ++ [b] ∧ t.heldBeat = s.heldBeat)
            ∧ (s.outReady = false → t.out = s.out ∧ t.heldBeat = some b))

/-- R119: every command has a next state; NOP, SETW and SETH make no port access; START in IDLE or DONE makes W*H
accesses, all writes of +0.0; a PIXEL makes at most 7. The trace of the port is log entry 10. -/
def Obligations.PortAccessesAreBounded : Prop :=
  ∀ (s : State) (i : Instr), ∃ t, exec i s = .next t
    ∧ ((i = .nop ∨ (∃ w, i = .setw w) ∨ (∃ h, i = .seth h)) → t.errTrace = s.errTrace ∧ t.out = s.out)
    ∧ (i = .start → s.regs.state = .idle ∨ s.regs.state = .done →
        (issued s t).length = s.regs.width.toNat * s.regs.height.toNat
          ∧ ∀ e ∈ issued s t, ∃ a, e = .write a 0x0000000000000000#64)
    ∧ ((∃ p n, i = .pixel p n) → (issued s t).length ≤ 7 ∧ t.out.length ≤ s.out.length + 1)

/-- R42, R49: the block reads and writes image cells only: in a state whose position is inside the frame when it runs
(R33 (a)), every access a command issues is to an image cell of the current W and H, and every byte outside the image
cells is unchanged. The trace of the port is log entry 10. -/
def Obligations.OnlyImageCellsAreAccessed : Prop :=
  ∀ (s t : State) (i : Instr), s.regs.Inv → exec i s = .next t →
    ∃ accesses, t.errTrace = s.errTrace ++ accesses
      ∧ (∀ e ∈ accesses, ∃ r c, r < s.regs.height.toNat ∧ c < s.regs.width.toNat
          ∧ (e = .read (cellAddr s.regs.width.toNat r c) ∨ ∃ v, e = .write (cellAddr s.regs.width.toNat r c) v))
      ∧ (∀ b, (∀ r c, r < s.regs.height.toNat → c < s.regs.width.toNat →
            ¬ (byteAddr (cellAddr s.regs.width.toNat r c) ≤ b ∧ b < byteAddr (cellAddr s.regs.width.toNat r c) + 8)) →
          t.err.readByte b = s.err.readByte b)

/-- R42, R51, R31 (d): what ERR holds outside the image cells (padding, other words, what an earlier frame left) has
no effect on any register, beat or access. Two states that differ in ERR only, and in RUN agree on the image cells of
the frame, stay so under every command: START needs no agreement, since it clears. -/
def Obligations.OnlyImageCellsMatter : Prop :=
  ∀ (s u t v : State) (i : Instr), s.regs.Inv → u = { s with err := u.err } →
    (s.regs.state = .run → ∀ r c, r < s.regs.height.toNat → c < s.regs.width.toNat →
      s.err.readWord (cellAddr s.regs.width.toNat r c) = u.err.readWord (cellAddr s.regs.width.toNat r c)) →
    exec i s = .next t → exec i u = .next v →
      v = { t with err := v.err }
        ∧ (t.regs.state = .run → ∀ r c, r < t.regs.height.toNat → c < t.regs.width.toNat →
          t.err.readWord (cellAddr t.regs.width.toNat r c) = v.err.readWord (cellAddr t.regs.width.toNat r c))

/-- R93, R50: the boundary policy: the ErrAdds a completing PIXEL issues depend only on its position and the size.
After its read of its own cell it issues a read and a write of the right target iff the column exists, of the
down-left target iff the row and the column exist, of the down target iff the row exists, in this order. -/
def Obligations.DroppedTermsIssueNoAccess : Prop :=
  ∀ (s t : State) (p n : Pix), s.regs.state = .run → exec (.pixel p n) s = .next t → t.regs.state ≠ .error →
    ∃ v1 v2 v3, t.errTrace = s.errTrace ++ [.read (currentCell s)]
      ++ (if s.regs.col.toNat + 1 < s.regs.width.toNat then
            let a := cellAddr s.regs.width.toNat s.regs.row.toNat (s.regs.col.toNat + 1)
            [.read a, .write a v1] else [])
      ++ (if s.regs.row.toNat + 1 < s.regs.height.toNat ∧ 1 ≤ s.regs.col.toNat then
            let a := cellAddr s.regs.width.toNat (s.regs.row.toNat + 1) (s.regs.col.toNat - 1)
            [.read a, .write a v2] else [])
      ++ (if s.regs.row.toNat + 1 < s.regs.height.toNat then
            let a := cellAddr s.regs.width.toNat (s.regs.row.toNat + 1) s.regs.col.toNat
            [.read a, .write a v3] else [])

/-- R23, R24, R21: WIDTH is written only by SETW and HEIGHT only by SETH, each with its operand; otherwise only reset
changes them. The events are those of log entry 2. -/
def Obligations.DimensionsAreWrittenOnlyByTheirCommand : Prop :=
  ∀ s t : State, step s = .next t →
    (t.regs.width = s.regs.width
        ∨ (t.regs = Regs.reset ∧ ∃ rest,
            s.nextEvent = some (.reset, rest) ∨ ∃ cmd kept b, s.nextEvent = some (.resetDuring cmd kept b, rest))
        ∨ ∃ w rest, s.nextEvent = some (.command (encode (.setw w)), rest) ∧ t.regs = { s.regs with width := w })
      ∧ (t.regs.height = s.regs.height
        ∨ (t.regs = Regs.reset ∧ ∃ rest,
            s.nextEvent = some (.reset, rest) ∨ ∃ cmd kept b, s.nextEvent = some (.resetDuring cmd kept b, rest))
        ∨ ∃ h rest, s.nextEvent = some (.command (encode (.seth h)), rest) ∧ t.regs = { s.regs with height := h })

/-- R107, R30: no command, reset, fault or other event writes the tables. The events are those of log entry 2. -/
def Obligations.TablesNeverChange : Prop :=
  ∀ s t : State, step s = .next t → t.roms = s.roms

/-! ### The threshold modulator (spec/40_threshold.md) -/

/-- R82: the noise residue, by cases over the whole 8-bit domain: it is n[6:0]; each k in 0..126 arises from exactly the
noise values k and k + 128, and 127 from 127 and from 255, which lies outside the source's domain. -/
def Obligations.NoiseResidueByCases : Prop :=
  ∀ n : Pix,
    noiseResidue n = (n.extractLsb' 0 7).toNat
      ∧ (n.toNat ≤ 127 → noiseResidue n = n.toNat)
      ∧ (128 ≤ n.toNat → n.toNat ≤ 254 → noiseResidue n = n.toNat - 128)
      ∧ (∀ k, k ≤ 126 → (noiseResidue n = k ↔ n.toNat = k ∨ n.toNat = k + 128))
      ∧ (noiseResidue n = 127 ↔ n = 127 ∨ n = 255)

/-- R81: the index comes from the clamped, floored level: 0 below 0.0, 255 from 255.0 on, else the integer part. -/
def Obligations.IndexIsTheFlooredClampedLevel : Prop :=
  ∀ x : F64, isFinite x = true →
    (ge64 x 0x0000000000000000#64 = false → levelIndex x = 0)
      ∧ (ge64 x 0x406FE00000000000#64 = true → levelIndex x = 255)
      ∧ (ge64 x 0x0000000000000000#64 = true → ge64 x 0x406FE00000000000#64 = false →
          ge64 x (f64 (levelIndex x).toNat) = true ∧ ge64 x (f64 ((levelIndex x).toNat + 1)) = false)

/-- R83: with a legal strength and any noise, 0.0 <= m <= 127.0 and 128.0 <= thr <= 255.0. -/
def Obligations.ThresholdStaysInRange : Prop :=
  ∀ (m : F64) (n : Pix), legalStrength m = true →
    ge64 (mul64 (f64 (noiseResidue n)) m) 0x0000000000000000#64 = true
      ∧ ge64 (f64 127) (mul64 (f64 (noiseResidue n)) m) = true
      ∧ ge64 (thresholdOf m n) (f64 128) = true
      ∧ ge64 (f64 255) (thresholdOf m n) = true

/-- R84: with noise 0 or 128 the threshold is 128.0 exactly, and the result is 255 iff x >= 128.0, whatever the table
holds. -/
def Obligations.ZeroResidueIgnoresTheTable : Prop :=
  ∀ (roms : Roms) (x : F64) (n : Pix), isFinite x = true → n = 0 ∨ n = 128 →
    thresholdAt roms x n = f64 128
      ∧ (thresh roms x n = 255 ↔ ge64 x (f64 128) = true)

/-- R85: comparing the unclamped level gives the same result. -/
def Obligations.ClampDoesNotChangeTheDecision : Prop :=
  ∀ (roms : Roms) (x : F64) (n : Pix), isFinite x = true →
    thresh roms x n = if ge64 x (thresholdAt roms x n) then 255 else 0

/-- R86 and the table-independent laws of 95_test_vectors.md 2.1: THRESH is total with result 0 or 255; x < 128.0
gives 0 and x >= 255.0 gives 255 under every legal table and every noise. -/
def Obligations.TableIndependentDecisions : Prop :=
  ∀ (roms : Roms) (x : F64) (n : Pix), isFinite x = true →
    (thresh roms x n = 0 ∨ thresh roms x n = 255)
      ∧ (ge64 x (f64 128) = false → thresh roms x n = 0)
      ∧ (ge64 x (f64 255) = true → thresh roms x n = 255)

/-- R80 steps 3 and 4, and with R105 (named premises) the two worked threshold examples of the source (95_test_vectors.md S5,
S6): the modulation ROM is read at the index of the corrected level; m is k times that entry, rounded, and the threshold 128.0
plus m, rounded: m = 3.4000000000000004, thr = 131.4, output 255, and m = 24.48, thr = 152.48, output 0. -/
def Obligations.SourceThresholdExamples : Prop :=
  (∀ (roms : Roms) (x : F64) (n : Pix),
    thresholdAt roms x n = add64 (f64 128) (mul64 (f64 (n.toNat % 128)) (modRead roms (levelIndex x))))
    ∧ ∀ roms : Roms, roms.SourceEntries →
      (levelIndex (f64 200) = 200
        ∧ mul64 (f64 (noiseResidue 10)) (modRead roms (levelIndex (f64 200))) = 0x400B333333333334#64
        ∧ thresholdAt roms (f64 200) 10 = 0x40606CCCCCCCCCCD#64
        ∧ thresh roms (f64 200) 10 = 255)
      ∧ (levelIndex (f64 50) = 50
        ∧ mul64 (f64 (noiseResidue 200)) (modRead roms (levelIndex (f64 50))) = 0x40387AE147AE147B#64
        ∧ thresholdAt roms (f64 50) 200 = 0x40630F5C28F5C28F#64
        ∧ thresh roms (f64 50) 200 = 0)
      ∧ coefRead roms 0 = ⟨13, 0, 5, 18⟩

/-! ### The error accumulator (spec/41_error_distributor.md) -/

/-- R92: an output of 0 leaves the residual equal to the unclamped corrected level, exactly. -/
def Obligations.ZeroOutputKeepsTheResidual : Prop :=
  ∀ x : F64, isFinite x = true → residualOf x 0 = x

/-- R94: a residual of +0.0 gives three terms of +0.0 for every legal record. -/
def Obligations.ZeroResidualGivesZeroTerms : Prop :=
  ∀ (bits : Nat) (row : CoefRow), row.legal bits = true → termsOf row posZero = ⟨posZero, posZero, posZero⟩

/-- R94: a term has the sign of the residual, a weight of 0 giving a zero of that sign. -/
def Obligations.TermsTakeTheSignOfTheResidual : Prop :=
  ∀ (bits : Nat) (row : CoefRow) (diff : F64), row.legal bits = true → isFinite diff = true →
    ∀ w, (w = row.cr ∨ w = row.cdl ∨ w = row.cd) →
      signBit (weightedTerm diff w row.csum) = signBit diff
        ∧ isNaN (weightedTerm diff w row.csum) = false
        ∧ (w = 0 → isZero (weightedTerm diff w row.csum) = true)

/-- R94: adding a zero term leaves every value a cell can hold, an infinity included, unchanged: every value that is
no NaN and not -0.0. -/
def Obligations.ZeroTermLeavesTheCell : Prop :=
  ∀ v z : F64, isNaN v = false → v ≠ negZero → isZero z = true → add64 v z = v

/-- R94: no sum of an accumulation that starts at +0.0 is -0.0: adding anything to a value that is not -0.0 never gives
-0.0. -/
def Obligations.SumsAreNeverNegativeZero : Prop :=
  ∀ v t : F64, v ≠ negZero → add64 v t ≠ negZero

/-- R90, R95, C2: the right, down-left and down terms are diff * w / csum for w = cr, cdl and cd, the product rounded first,
and go to the right, down-left and down cell (the boundary table of 95_test_vectors.md 2.2, pixel (1, 1)). One by one in
vectors D5 and D8, and in R90's worked example on the error memory: in a 2x2 frame the pixel (0, 0) adds 13.0 to the right
and 5.0 down, its down-left term dropped. In D5 the terms -158.4421608846261, -0.0 and -60.939292647933115 of diff =
-219.38145353255925 add up to -219.38145353255922: conservation is not exact in f64. -/
def Obligations.ConservationIsNotExactInBinary64 : Prop :=
  (∀ (row : CoefRow) (diff : F64),
    (termsOf row diff).right = div64 (mul64 diff (f64 row.cr)) (f64 row.csum)
      ∧ (termsOf row diff).downLeft = div64 (mul64 diff (f64 row.cdl)) (f64 row.csum)
      ∧ (termsOf row diff).down = div64 (mul64 diff (f64 row.cd)) (f64 row.csum))
    ∧ (∀ t : Terms, additions 3 3 1 1 t = [(6#32, t.right), (8#32, t.downLeft), (9#32, t.down)])
    ∧ termsOf ⟨7, 3, 5, 16⟩ 0x4030000000000000#64 =
        ⟨0x401C000000000000#64, 0x4008000000000000#64, 0x4014000000000000#64⟩
    ∧ (∀ s : State, s.roms.SourceEntries → s.regs.width = 2 → s.regs.height = 2 →
        let t := distrib 0x4032000000000000#64 0 0 0 s
        t.err.readWord 1 = add64 (s.err.readWord 1) 0x402A000000000000#64
          ∧ t.err.readWord 3 = add64 (s.err.readWord 3) 0x4014000000000000#64
          ∧ (∀ a, a ≠ 1 → a ≠ 3 → t.err.readWord a = s.err.readWord a))
    ∧ (let diff : F64 := 0xC06B6C34DE09E924#64
      let t := termsOf ⟨13, 0, 5, 18⟩ diff
      t.right = 0xC063CE262E956144#64 ∧ t.downLeft = 0x8000000000000000#64 ∧ t.down = 0xC04E783ABDD21F7C#64
        ∧ add64 (add64 t.right t.downLeft) t.down = 0xC06B6C34DE09E923#64
        ∧ add64 (add64 t.right t.downLeft) t.down ≠ diff)

/-! ### Memory (spec/20_memory.md) -/

/-- R41, R43: the address of a buffer cell is r * (W + 1) + c without wrapping, and different buffer cells, padding
included, have different addresses. -/
def Obligations.CellAddressesAreDistinct : Prop :=
  ∀ w h r c r' c' : Nat, w ≤ 65535 → h ≤ 65535 → r ≤ h → c ≤ w → r' ≤ h → c' ≤ w →
    (cellAddr w r c).toNat = r * (w + 1) + c
      ∧ (cellAddr w r c).toNat < (h + 1) * (w + 1)
      ∧ (cellAddr w r c = cellAddr w r' c' ↔ r = r' ∧ c = c')

/-- R48: words are single-copy atomic: a read returns the whole value of the most recent write to that word, and a write
changes no other word. -/
def Obligations.ReadReturnsTheLastWrite : Prop :=
  ∀ (s : State) (a b : ErrAddr) (v : F64),
    (errRead b (errWrite a v s)).1 = if b = a then v else (errRead b s).1

/-- R45: word a occupies the 8 bytes from byte offset 8*a to 8*a + 7 above the buffer's byte base, little-endian, bits
[7:0] at the lowest byte; every other byte is unchanged. That ERR is held as bytes at all, and that the byte base is
0, is the model's own choice, log entry 5 (DESIGN CHOICE): on a platform with another base the claim is about offsets,
not addresses. -/
def Obligations.WordsAreLittleEndian : Prop :=
  ∀ (s : State) (a : ErrAddr) (v : F64) (b : Nat),
    (∀ i, i < 8 → b = 8 * a.toNat + i → (errWrite a v s).err.readByte b = v.extractLsb' (8 * i) 8)
      ∧ (b < 8 * a.toNat ∨ 8 * a.toNat + 8 ≤ b → (errWrite a v s).err.readByte b = s.err.readByte b)

/-- R100, R101, R106: the lookups give entry i of their tables; the record read back from coefficient ROM word i is row i, and
the modulation ROM word is the entry's pattern. -/
def Obligations.RomWordsHoldTheTables : Prop :=
  ∀ (roms : Roms) (i : Pix),
    roms.tables.coef[i.toNat]? = some (coefRead roms i)
      ∧ roms.tables.strength[i.toNat]? = some (modRead roms i)
      ∧ coefRowOfRomWord roms.tables.coefBits (coefRomWord roms i) = coefRead roms i
      ∧ modRomWord roms i = modRead roms i

/-! ### Status (spec/10_state.md R28, spec/60_exceptions.md R134) -/

/-- R28, R22, R134: the fields of STATUS, for every state of the registers, with the codes of STATE (R22) and CAUSE
(R130), and the two level outputs; STATUS is 0 after reset. -/
def Obligations.StatusFields : Prop :=
  Regs.reset.status = 0x00000000#32 ∧ ∀ r : Regs,
    (r.status.extractLsb' 0 2).toNat =
        (match r.state with | .idle => 0 | .run => 1 | .done => 2 | .error => 3)
      ∧ r.status.extractLsb' 2 2 = 0#2
      ∧ (r.status.extractLsb' 4 4).toNat =
        (match r.cause with
          | .none => 0 | .illegalOpcode => 1 | .reservedField => 2 | .badState => 3 | .nonfinite => 4)
      ∧ (r.status.getLsbD 8 = true ↔ r.state = .done)
      ∧ (r.status.getLsbD 9 = true ↔ r.state = .error)
      ∧ r.status.extractLsb' 10 22 = 0#22
      ∧ (r.doneOut = true ↔ r.state = .done)
      ∧ (r.errOut = true ↔ r.state = .error)

/-! ### Invariants (spec/10_state.md R33) -/

/-- R33, R34: the invariant holds right after reset. Its parts beyond R33 rest on log entries 5 (the form of the
memory), 9 (the size of the frame) and 21 (the held beat); that no beat has been sent at reset is log entry 10. -/
def Obligations.InvariantHoldsAtReset : Prop := State.reset.Inv

/-- R33, R46, R53, R94 and the canonical form of the memory: every step keeps the invariant, whatever the outside
does. R33 (b) is part of it as a fact about the size of the frame that ended (log entry 9). The events are those of
log entry 2; the canonical form of the memory is log entry 5. What the invariant says of a held beat (`HoldInv`: STATE
= RUN, the host not taking beats) is a claim about the registers while a PIXEL is in progress, which the spec leaves
unspecified: it is the model's choice, log entry 21. -/
def Obligations.EveryStepKeepsTheInvariant : Prop :=
  ∀ s t : State, s.Inv → step s = .next t → t.Inv

/-- R33 (b) word for word, of the registers WIDTH and HEIGHT: it holds wherever these still have the size of the frame
that ended, and every step keeps it, but for a SETW or SETH that is carried out in DONE (log entry 9). -/
def Obligations.FrameEndIsKeptButBySetup : Prop :=
  (∀ s : State, s.Inv → s.frame = some ⟨s.regs.width, s.regs.height⟩ → s.regs.FrameEnd)
    ∧ ∀ s t : State, s.Inv → s.regs.FrameEnd → step s = .next t →
      t.regs.FrameEnd
        ∨ (s.regs.state = .done ∧ ∃ v rest,
            s.input = .command (encode (.setw v)) :: rest ∨ s.input = .command (encode (.seth v)) :: rest)

/-- Log entry 9: R33 (b) as it stands does not follow from R113: some state meets all of R33, and SETH in it leads to a
state in DONE that breaks R33 (b). -/
def Obligations.SetupInDoneCanBreakFrameEnd : Prop :=
  ∃ (s t : State) (h : Dim), s.Inv ∧ s.regs.FrameEnd ∧ exec (.seth h) s = .next t ∧ t.regs.state = .done
    ∧ ¬ t.regs.FrameEnd

/-! ### Frames (spec/43_commands.md R120, R121, spec/20_memory.md R55) -/

/-- R121, R55: the frame function. From any state in IDLE or DONE, START and the W*H PIXELs of a frame, in raster
order, taken without a fault and with a host that takes every beat (R152, step 5), send exactly the beats of the frame
function (the fold of R55, THRESH, the residual and the terms, computed cell by cell with no memory), and end in DONE
at (H, 0), with every other event still offered. -/
def Obligations.FrameFunction : Prop :=
  ∀ (s t : State) (rows : List (List PixelIn)) (rest : List Input),
    s.regs.state = .idle ∨ s.regs.state = .done →
    1 ≤ s.regs.width.toNat → 1 ≤ s.regs.height.toNat →
    rows.length = s.regs.height.toNat → (∀ row ∈ rows, row.length = s.regs.width.toNat) →
    s.input = frameInput rows ++ rest → s.outReady = true → s.heldBeat = none →
    Sys2Proof.core.run (frameInput rows).length s = .next t → t.FaultFree →
      t.out = s.out ++ frameBeats s.roms rows
        ∧ t.regs = { s.regs with state := .done, row := s.regs.height, col := 0 }
        ∧ t.input = rest ∧ t.heldBeat = none

/-- R121: "a uniform image of intensity 0 gives all-0 output for any noise", under every legal table: every beat of
its frame function is 0x00. -/
def Obligations.ZeroImageGivesZeroBeats : Prop :=
  ∀ (roms : Roms) (rows : List (List PixelIn)), (∀ row ∈ rows, ∀ q ∈ row, q.p = 0) →
    frameBeats roms rows = List.replicate rows.flatten.length 0x00#8

/-- R121: the same on the machine, step by step: in RUN with every image cell at +0.0 and the position inside the
frame, a PIXEL of intensity 0 with any noise, its beat taken, completes, sends 0x00, and leaves every image cell at
+0.0. -/
def Obligations.ZeroPixelKeepsZeroCells : Prop :=
  ∀ (s : State) (n : Pix), s.regs.state = .run → s.outReady = true →
    s.regs.row < s.regs.height → s.regs.col < s.regs.width →
    (∀ r c, r < s.regs.height.toNat → c < s.regs.width.toNat →
      s.err.readWord (cellAddr s.regs.width.toNat r c) = posZero) →
      ∃ t, exec (.pixel 0 n) s = .next t ∧ t.out = s.out ++ [0x00#8] ∧ t.regs.state ≠ .error
        ∧ (∀ r c, r < s.regs.height.toNat → c < s.regs.width.toNat →
          t.err.readWord (cellAddr s.regs.width.toNat r c) = posZero)
end

