-- ==== Sys2Proof/Laws/Memory.lean ====
section
/-! SUPPORT. The laws of the error memory: what a write of a byte or a word changes, and that every operation keeps the
canonical form. -/

namespace Sys2Proof.Laws

open Machine

/-! ### Bytes -/

theorem written_writeByte (m : Memory) (b b' : Nat) (v : Byte) :
    Memory.written (m.writeByte b v) b' = if b' = b then some v else Memory.written m b' := by
  induction m with
  | nil => simp only [Memory.writeByte, Memory.written, eq_comm]
  | cons x rest ih =>
    obtain ⟨k, w⟩ := x
    simp only [Memory.writeByte]
    split
    · simp only [Memory.written, eq_comm]
    · split
      · subst b
        simp only [Memory.written, eq_comm]
        split <;> simp_all
      · have hk : k ≠ b := fun e => by omega
        simp only [Memory.written, ih]
        by_cases e : k = b'
        · subst e; simp [hk]
        · simp [e]

/-- The keys after a byte write: the byte's own and those before. -/
theorem mem_writeByte {m : Memory} {b : Nat} {v : Byte} {x : Host.Cell} (h : x ∈ m.writeByte b v) :
    x.1 = b ∨ x ∈ m := by
  induction m with
  | nil => simp_all [Memory.writeByte]
  | cons y rest ih =>
    simp only [Memory.writeByte] at h
    split at h
    · simp only [List.mem_cons] at h ⊢
      rcases h with h | h <;> simp_all
    · split at h
      · simp only [List.mem_cons] at h ⊢
        rcases h with h | h <;> simp_all
      · simp only [List.mem_cons] at h ⊢
        rcases h with h | h
        · exact .inr (.inl h)
        · exact (ih h).imp_right .inr

theorem pairwise_writeByte (m : Memory) (b : Nat) (v : Byte) (h : m.Pairwise (fun x y => x.1 < y.1)) :
    (m.writeByte b v).Pairwise (fun x y => x.1 < y.1) := by
  induction m with
  | nil => simp [Memory.writeByte]
  | cons y rest ih =>
    rw [List.pairwise_cons] at h
    simp only [Memory.writeByte]
    split
    · rename_i hb
      refine List.pairwise_cons.2 ⟨fun z hz => ?_, List.pairwise_cons.2 h⟩
      rcases List.mem_cons.1 hz with rfl | hz
      · exact hb
      · exact Nat.lt_trans hb (h.1 z hz)
    · split
      · subst b
        exact List.pairwise_cons.2 ⟨h.1, h.2⟩
      · refine List.pairwise_cons.2 ⟨fun z hz => ?_, ih h.2⟩
        rcases mem_writeByte hz with e | hz
        · rw [e]; omega
        · exact h.1 z hz

theorem wf_iff {m : Memory} :
    m.wf = true ↔ m.Pairwise (fun x y => x.1 < y.1) ∧ ∀ x ∈ m, x.1 < errBytes := by
  simp [Memory.wf]

/-- A byte write keeps the canonical form. -/
theorem wf_writeByte {m : Memory} {b : Nat} (v : Byte) (hm : m.wf = true) (hb : b < errBytes) :
    (m.writeByte b v).wf = true := by
  rw [wf_iff] at hm ⊢
  refine ⟨pairwise_writeByte m b v hm.1, fun x hx => ?_⟩
  rcases mem_writeByte hx with e | hx
  · omega
  · exact hm.2 x hx

theorem wf_nil : Memory.wf [] = true := by decide

/-! ### Words -/

theorem byteAddr_lt (a : ErrAddr) (i : Nat) (hi : i < 8) : byteAddr a + i < errBytes := by
  have := a.isLt
  simp only [byteAddr, errBytes]
  omega

/-- Bytes of different words are different bytes. -/
theorem byteAddr_inj {a a' : ErrAddr} {i i' : Nat} (hi : i < 8) (hi' : i' < 8)
    (h : byteAddr a + i = byteAddr a' + i') : a = a' ∧ i = i' := by
  simp only [byteAddr] at h
  have : a.toNat = a'.toNat := by omega
  exact ⟨BitVec.eq_of_toNat_eq this, by omega⟩

theorem wf_foldl_writeByte (l : List Nat) (m : Memory) (a : ErrAddr) (v : F64) (hm : m.wf = true) (hl : ∀ i ∈ l, i < 8) :
    (l.foldl (fun m i => m.writeByte (byteAddr a + i) (wordByte v i)) m).wf = true := by
  induction l generalizing m with
  | nil => exact hm
  | cons i rest ih =>
    exact ih _ (wf_writeByte _ hm (byteAddr_lt a i (hl i (by simp)))) (fun j hj => hl j (by simp [hj]))

theorem written_foldl_writeByte (l : List Nat) (m : Memory) (a : ErrAddr) (v : F64) (b : Nat) :
    Memory.written (l.foldl (fun m i => m.writeByte (byteAddr a + i) (wordByte v i)) m) b =
      if b - byteAddr a ∈ l ∧ byteAddr a ≤ b then some (wordByte v (b - byteAddr a)) else Memory.written m b := by
  induction l generalizing m with
  | nil => simp
  | cons i rest ih =>
    rw [List.foldl_cons, ih, written_writeByte]
    by_cases hb : byteAddr a ≤ b
    · by_cases hr : b - byteAddr a ∈ rest
      · simp [hb, hr]
      · by_cases e : b = byteAddr a + i
        · subst e; simp
        · have : b - byteAddr a ≠ i := by omega
          simp [hb, hr, e, this]
    · have : b ≠ byteAddr a + i := by omega
      simp [hb, this]

/-- A word write keeps the canonical form. -/
theorem wf_writeWord {m : Memory} (a : ErrAddr) (v : F64) (hm : m.wf = true) : (m.writeWord a v).wf = true :=
  wf_foldl_writeByte [0, 1, 2, 3, 4, 5, 6, 7] m a v hm (by decide)

/-- The bytes after a word write (R45): byte `i` of word `a` is byte `i` of the value, every other byte is as before. -/
theorem written_writeWord {m : Memory} (a : ErrAddr) (v : F64) (b : Nat) :
    Memory.written (m.writeWord a v) b =
      if byteAddr a ≤ b ∧ b < byteAddr a + 8 then some (wordByte v (b - byteAddr a)) else Memory.written m b := by
  rw [Memory.writeWord, written_foldl_writeByte]
  have e : (b - byteAddr a ∈ [0, 1, 2, 3, 4, 5, 6, 7] ∧ byteAddr a ≤ b) ↔ (byteAddr a ≤ b ∧ b < byteAddr a + 8) := by
    simp only [List.mem_cons, List.not_mem_nil, or_false]
    omega
  simp only [e]

theorem readByte_writeWord {m : Memory} (a : ErrAddr) (v : F64) (b : Nat) :
    (m.writeWord a v).readByte b =
      if byteAddr a ≤ b ∧ b < byteAddr a + 8 then wordByte v (b - byteAddr a) else m.readByte b := by
  simp only [Memory.readByte, written_writeWord a v]
  split <;> simp

/-- The eight bytes of a word, most significant first, are the word. -/
theorem wordBytes_append (v : F64) :
    wordByte v 7 ++ wordByte v 6 ++ wordByte v 5 ++ wordByte v 4 ++ wordByte v 3 ++ wordByte v 2 ++ wordByte v 1
      ++ wordByte v 0 = v := by
  apply BitVec.eq_of_getLsbD_eq
  intro i hi
  simp only [wordByte, BitVec.getLsbD_append, BitVec.getLsbD_extractLsb']
  split_ifs <;> (rw [decide_eq_true (by omega), Bool.true_and]; congr 1; omega)

/-- Single-copy atomic words (R48): a read returns the whole value of the most recent write to that word. -/
theorem readWord_writeWord_same {m : Memory} (a : ErrAddr) (v : F64) :
    (m.writeWord a v).readWord a = v := by
  have hb : ∀ i, i < 8 → (m.writeWord a v).readByte (byteAddr a + i) = wordByte v i := fun i hi => by
    rw [readByte_writeWord a v, if_pos (by omega), Nat.add_sub_cancel_left]
  have h0 := hb 0 (by omega)
  rw [Nat.add_zero] at h0
  simp only [Memory.readWord, hb 7 (by omega), hb 6 (by omega), hb 5 (by omega), hb 4 (by omega), hb 3 (by omega),
    hb 2 (by omega), hb 1 (by omega), h0]
  exact wordBytes_append v

/-- Reading a word looks only at its own bytes. -/
theorem readWord_congr {m m' : Memory} (a : ErrAddr)
    (h : ∀ i, i < 8 → m.readByte (byteAddr a + i) = m'.readByte (byteAddr a + i)) : m.readWord a = m'.readWord a := by
  have h0 := h 0 (by omega)
  rw [Nat.add_zero] at h0
  simp only [Memory.readWord, h 7 (by omega), h 6 (by omega), h 5 (by omega), h 4 (by omega), h 3 (by omega),
    h 2 (by omega), h 1 (by omega), h0]

/-- A write of one word leaves every other word. -/
theorem readWord_writeWord_ne {m : Memory} {a a' : ErrAddr} (v : F64) (h : a' ≠ a) :
    (m.writeWord a v).readWord a' = m.readWord a' := by
  refine readWord_congr a' fun i hi => ?_
  rw [readByte_writeWord a v, if_neg]
  intro hc
  have : byteAddr a' + i = byteAddr a + (byteAddr a' + i - byteAddr a) := by omega
  exact h (byteAddr_inj hi (by omega) this).1

theorem readWord_writeWord {m : Memory} (a a' : ErrAddr) (v : F64) :
    (m.writeWord a v).readWord a' = if a' = a then v else m.readWord a' := by
  split
  · subst a'; exact readWord_writeWord_same a v
  · exact readWord_writeWord_ne v ‹_›

theorem wordWritten_iff {m : Memory} {a : ErrAddr} :
    m.wordWritten a = true ↔ ∀ i, i < 8 → (Memory.written m (byteAddr a + i)).isSome = true := by
  simp only [Memory.wordWritten, List.all_eq_true, List.mem_cons, List.not_mem_nil, or_false]
  constructor
  · intro h i hi
    exact h i (by omega)
  · intro h i hi
    exact h i (by omega)

/-- A write lists the word written, and un-lists nothing. -/
theorem wordWritten_writeWord {m : Memory} (a a' : ErrAddr) (v : F64) :
    (m.writeWord a v).wordWritten a' = (decide (a' = a) || m.wordWritten a') := by
  rw [Bool.eq_iff_iff, Bool.or_eq_true, decide_eq_true_eq, wordWritten_iff, wordWritten_iff]
  simp only [written_writeWord a v]
  constructor
  · intro h
    by_cases e : a' = a
    · exact .inl e
    · refine .inr fun i hi => ?_
      have := h i hi
      rwa [if_neg] at this
      intro hc
      have e' : byteAddr a' + i = byteAddr a + (byteAddr a' + i - byteAddr a) := by omega
      exact e (byteAddr_inj hi (by omega) e').1
  · rintro (rfl | h) i hi
    · rw [if_pos (by omega)]; rfl
    · split
      · rfl
      · exact h i hi

end Sys2Proof.Laws
end

