-- ==== Sys2Proof/Laws/State.lean ====
section
/-! SUPPORT. One lemma per field per update of State, each true by definition, so that no later proof unfolds a record
update. -/

namespace Sys2Proof.Laws

open Machine

/-! ### `errRead`: only the trace grows -/

@[simp] theorem errRead_snd_regs (a : ErrAddr) (s : State) : ((errRead a s).2).regs = s.regs := rfl
@[simp] theorem errRead_snd_roms (a : ErrAddr) (s : State) : ((errRead a s).2).roms = s.roms := rfl
@[simp] theorem errRead_snd_err (a : ErrAddr) (s : State) : ((errRead a s).2).err = s.err := rfl
@[simp] theorem errRead_snd_input (a : ErrAddr) (s : State) : ((errRead a s).2).input = s.input := rfl
@[simp] theorem errRead_snd_out (a : ErrAddr) (s : State) : ((errRead a s).2).out = s.out := rfl
@[simp] theorem errRead_snd_errTrace (a : ErrAddr) (s : State) : ((errRead a s).2).errTrace = s.errTrace ++ [.read a] := rfl
@[simp] theorem errRead_snd_outReady (a : ErrAddr) (s : State) : ((errRead a s).2).outReady = s.outReady := rfl
@[simp] theorem errRead_snd_heldBeat (a : ErrAddr) (s : State) : ((errRead a s).2).heldBeat = s.heldBeat := rfl
@[simp] theorem errRead_snd_frame (a : ErrAddr) (s : State) : ((errRead a s).2).frame = s.frame := rfl
@[simp] theorem errRead_fst (a : ErrAddr) (s : State) : (errRead a s).1 = s.err.readWord a := rfl

/-! ### `errWrite` -/

@[simp] theorem errWrite_regs (a : ErrAddr) (v : F64) (s : State) : (errWrite a v s).regs = s.regs := rfl
@[simp] theorem errWrite_roms (a : ErrAddr) (v : F64) (s : State) : (errWrite a v s).roms = s.roms := rfl
@[simp] theorem errWrite_err (a : ErrAddr) (v : F64) (s : State) : (errWrite a v s).err = s.err.writeWord a v := rfl
@[simp] theorem errWrite_input (a : ErrAddr) (v : F64) (s : State) : (errWrite a v s).input = s.input := rfl
@[simp] theorem errWrite_out (a : ErrAddr) (v : F64) (s : State) : (errWrite a v s).out = s.out := rfl
@[simp] theorem errWrite_errTrace (a : ErrAddr) (v : F64) (s : State) : (errWrite a v s).errTrace = s.errTrace ++ [.write a v] := rfl
@[simp] theorem errWrite_outReady (a : ErrAddr) (v : F64) (s : State) : (errWrite a v s).outReady = s.outReady := rfl
@[simp] theorem errWrite_heldBeat (a : ErrAddr) (v : F64) (s : State) : (errWrite a v s).heldBeat = s.heldBeat := rfl
@[simp] theorem errWrite_frame (a : ErrAddr) (v : F64) (s : State) : (errWrite a v s).frame = s.frame := rfl

/-! ### `errAdd`: one read and one write of the sum (R50) -/

@[simp] theorem errAdd_regs (a : ErrAddr) (t : F64) (s : State) : (errAdd a t s).regs = s.regs := rfl
@[simp] theorem errAdd_roms (a : ErrAddr) (t : F64) (s : State) : (errAdd a t s).roms = s.roms := rfl
@[simp] theorem errAdd_err (a : ErrAddr) (t : F64) (s : State) : (errAdd a t s).err = s.err.writeWord a (add64 (s.err.readWord a) t) := rfl
@[simp] theorem errAdd_input (a : ErrAddr) (t : F64) (s : State) : (errAdd a t s).input = s.input := rfl
@[simp] theorem errAdd_out (a : ErrAddr) (t : F64) (s : State) : (errAdd a t s).out = s.out := rfl
@[simp] theorem errAdd_errTrace (a : ErrAddr) (t : F64) (s : State) : (errAdd a t s).errTrace = s.errTrace ++ [.read a] ++ [.write a (add64 (s.err.readWord a) t)] := rfl
@[simp] theorem errAdd_outReady (a : ErrAddr) (t : F64) (s : State) : (errAdd a t s).outReady = s.outReady := rfl
@[simp] theorem errAdd_heldBeat (a : ErrAddr) (t : F64) (s : State) : (errAdd a t s).heldBeat = s.heldBeat := rfl
@[simp] theorem errAdd_frame (a : ErrAddr) (t : F64) (s : State) : (errAdd a t s).frame = s.frame := rfl

/-! ### `emit` -/

@[simp] theorem emit_regs (b : Beat) (s : State) : (emit b s).regs = s.regs := rfl
@[simp] theorem emit_roms (b : Beat) (s : State) : (emit b s).roms = s.roms := rfl
@[simp] theorem emit_err (b : Beat) (s : State) : (emit b s).err = s.err := rfl
@[simp] theorem emit_input (b : Beat) (s : State) : (emit b s).input = s.input := rfl
@[simp] theorem emit_out (b : Beat) (s : State) : (emit b s).out = s.out ++ [b] := rfl
@[simp] theorem emit_errTrace (b : Beat) (s : State) : (emit b s).errTrace = s.errTrace := rfl
@[simp] theorem emit_outReady (b : Beat) (s : State) : (emit b s).outReady = s.outReady := rfl
@[simp] theorem emit_heldBeat (b : Beat) (s : State) : (emit b s).heldBeat = s.heldBeat := rfl
@[simp] theorem emit_frame (b : Beat) (s : State) : (emit b s).frame = s.frame := rfl

/-! ### `takeFault` (R131) -/

@[simp] theorem takeFault_regs (cause : Cause) (cmd : Word) (s : State) : (takeFault cause cmd s).regs = { s.regs with state := .error, cause := cause, errcmd := cmd } := rfl
@[simp] theorem takeFault_roms (cause : Cause) (cmd : Word) (s : State) : (takeFault cause cmd s).roms = s.roms := rfl
@[simp] theorem takeFault_err (cause : Cause) (cmd : Word) (s : State) : (takeFault cause cmd s).err = s.err := rfl
@[simp] theorem takeFault_input (cause : Cause) (cmd : Word) (s : State) : (takeFault cause cmd s).input = s.input := rfl
@[simp] theorem takeFault_out (cause : Cause) (cmd : Word) (s : State) : (takeFault cause cmd s).out = s.out := rfl
@[simp] theorem takeFault_errTrace (cause : Cause) (cmd : Word) (s : State) : (takeFault cause cmd s).errTrace = s.errTrace := rfl
@[simp] theorem takeFault_outReady (cause : Cause) (cmd : Word) (s : State) : (takeFault cause cmd s).outReady = s.outReady := rfl
@[simp] theorem takeFault_heldBeat (cause : Cause) (cmd : Word) (s : State) : (takeFault cause cmd s).heldBeat = s.heldBeat := rfl
@[simp] theorem takeFault_frame (cause : Cause) (cmd : Word) (s : State) : (takeFault cause cmd s).frame = s.frame := rfl

/-! ### `resetBlock` (R150) -/

@[simp] theorem resetBlock_regs (s : State) : (resetBlock s).regs = Regs.reset := rfl
@[simp] theorem resetBlock_roms (s : State) : (resetBlock s).roms = s.roms := rfl
@[simp] theorem resetBlock_err (s : State) : (resetBlock s).err = s.err := rfl
@[simp] theorem resetBlock_input (s : State) : (resetBlock s).input = s.input := rfl
@[simp] theorem resetBlock_out (s : State) : (resetBlock s).out = s.out := rfl
@[simp] theorem resetBlock_errTrace (s : State) : (resetBlock s).errTrace = s.errTrace := rfl
@[simp] theorem resetBlock_outReady (s : State) : (resetBlock s).outReady = s.outReady := rfl
@[simp] theorem resetBlock_heldBeat (s : State) : (resetBlock s).heldBeat = none := rfl
@[simp] theorem resetBlock_frame (s : State) : (resetBlock s).frame = none := rfl

/-! ### `advance` (R117) -/

@[simp] theorem advance_regs (s : State) : (advance s).regs = advanceRegs s.regs := rfl
@[simp] theorem advance_roms (s : State) : (advance s).roms = s.roms := rfl
@[simp] theorem advance_err (s : State) : (advance s).err = s.err := rfl
@[simp] theorem advance_input (s : State) : (advance s).input = s.input := rfl
@[simp] theorem advance_out (s : State) : (advance s).out = s.out := rfl
@[simp] theorem advance_errTrace (s : State) : (advance s).errTrace = s.errTrace := rfl
@[simp] theorem advance_outReady (s : State) : (advance s).outReady = s.outReady := rfl
@[simp] theorem advance_heldBeat (s : State) : (advance s).heldBeat = s.heldBeat := rfl
@[simp] theorem advance_frame (s : State) : (advance s).frame = s.frame := rfl

/-! ### `withFetchWord` -/

@[simp] theorem withFetchWord_regs (nbits w : Nat) (s : State) : (s.withFetchWord nbits w).regs = s.regs := rfl
@[simp] theorem withFetchWord_roms (nbits w : Nat) (s : State) : (s.withFetchWord nbits w).roms = s.roms := rfl
@[simp] theorem withFetchWord_err (nbits w : Nat) (s : State) : (s.withFetchWord nbits w).err = s.err := rfl
@[simp] theorem withFetchWord_input (nbits w : Nat) (s : State) : (s.withFetchWord nbits w).input = .command (tableWord nbits w) :: s.input := rfl
@[simp] theorem withFetchWord_out (nbits w : Nat) (s : State) : (s.withFetchWord nbits w).out = s.out := rfl
@[simp] theorem withFetchWord_errTrace (nbits w : Nat) (s : State) : (s.withFetchWord nbits w).errTrace = s.errTrace := rfl
@[simp] theorem withFetchWord_outReady (nbits w : Nat) (s : State) : (s.withFetchWord nbits w).outReady = s.outReady := rfl
@[simp] theorem withFetchWord_heldBeat (nbits w : Nat) (s : State) : (s.withFetchWord nbits w).heldBeat = none := rfl
@[simp] theorem withFetchWord_frame (nbits w : Nat) (s : State) : (s.withFetchWord nbits w).frame = s.frame := rfl

/-! ### The registers after the position advance -/

@[simp] theorem advanceRegs_width (r : Regs) : (advanceRegs r).width = r.width := by unfold advanceRegs; split <;> rfl
@[simp] theorem advanceRegs_height (r : Regs) : (advanceRegs r).height = r.height := by unfold advanceRegs; split <;> rfl
@[simp] theorem advanceRegs_cause (r : Regs) : (advanceRegs r).cause = r.cause := by unfold advanceRegs; split <;> rfl
@[simp] theorem advanceRegs_errcmd (r : Regs) : (advanceRegs r).errcmd = r.errcmd := by unfold advanceRegs; split <;> rfl

/-! ### The registers after START -/

@[simp] theorem startRegs_width (r : Regs) : (startRegs r).width = r.width := rfl
@[simp] theorem startRegs_height (r : Regs) : (startRegs r).height = r.height := rfl
@[simp] theorem startRegs_cause (r : Regs) : (startRegs r).cause = r.cause := rfl
@[simp] theorem startRegs_errcmd (r : Regs) : (startRegs r).errcmd = r.errcmd := rfl
@[simp] theorem startRegs_row (r : Regs) : (startRegs r).row = 0 := rfl
@[simp] theorem startRegs_col (r : Regs) : (startRegs r).col = 0 := rfl

end Sys2Proof.Laws
end

