-- ==== Sys2Proof/Laws/Ops.lean ====
section
/-! SUPPORT. What each shared operation can do, said once: the cell address, runs of ErrWrites and ErrAdds, the ERROR check,
the port accesses a command issues, and an abandoned command. Later proofs cite these and do not unfold the operations. -/

namespace Sys2Proof.Laws

open Machine

/-! ### Cell addresses (R41, R43) -/

theorem cellAddr_bound {w r c : Nat} (hw : w < 2 ^ 16) (hr : r < 2 ^ 16) (hc : c < 2 ^ 16) :
    r * (w + 1) + c < 2 ^ 32 := by
  have h1 : r * (w + 1) ≤ 65535 * 65536 := Nat.mul_le_mul (by omega) (by omega)
  omega

/-- No address wraps (R43). -/
theorem cellAddr_toNat {w r c : Nat} (hw : w < 2 ^ 16) (hr : r < 2 ^ 16) (hc : c < 2 ^ 16) :
    (cellAddr w r c).toNat = r * (w + 1) + c := by
  rw [cellAddr, BitVec.toNat_ofNat, Nat.mod_eq_of_lt (cellAddr_bound hw hr hc)]

/-- Different buffer cells have different addresses. -/
theorem cellAddr_inj {w r c r' c' : Nat} (hw : w < 2 ^ 16) (hr : r < 2 ^ 16) (hr' : r' < 2 ^ 16) (hc : c ≤ w)
    (hc' : c' ≤ w) (h : cellAddr w r c = cellAddr w r' c') : r = r' ∧ c = c' := by
  have e := congrArg BitVec.toNat h
  rw [cellAddr_toNat hw hr (by omega), cellAddr_toNat hw hr' (by omega)] at e
  have h1 : (r * (w + 1) + c) / (w + 1) = r := by
    rw [Nat.mul_comm, Nat.mul_add_div (by omega), Nat.div_eq_of_lt (by omega), Nat.add_zero]
  have h2 : (r' * (w + 1) + c') / (w + 1) = r' := by
    rw [Nat.mul_comm, Nat.mul_add_div (by omega), Nat.div_eq_of_lt (by omega), Nat.add_zero]
  have hrr : r = r' := by rw [← h1, ← h2, e]
  subst hrr
  exact ⟨rfl, by omega⟩

theorem mem_imageCells {w h : Nat} {a : ErrAddr} :
    a ∈ imageCells w h ↔ ∃ r c, r < h ∧ c < w ∧ a = cellAddr w r c := by
  simp only [imageCells, List.mem_flatMap, List.mem_range, List.mem_map]
  constructor
  · rintro ⟨r, hr, c, hc, rfl⟩
    exact ⟨r, c, hr, hc, rfl⟩
  · rintro ⟨r, c, hr, hc, rfl⟩
    exact ⟨r, hr, c, hc, rfl⟩

theorem length_imageCells (w h : Nat) : (imageCells w h).length = h * w := by
  simp [imageCells, List.length_flatMap]

theorem nodup_imageCells {w h : Nat} (hw : w < 2 ^ 16) (hh : h < 2 ^ 16) : (imageCells w h).Nodup := by
  rw [imageCells, List.nodup_flatMap]
  constructor
  · intro r hr
    rw [List.mem_range] at hr
    refine List.Nodup.map_on (fun c hc c' hc' e => ?_) List.nodup_range
    rw [List.mem_range] at hc hc'
    exact (cellAddr_inj hw (by omega) (by omega) (by omega) (by omega) e).2
  · refine List.Pairwise.imp_of_mem (fun {r r'} hr hr' hne => ?_) List.nodup_range
    rw [List.mem_range] at hr hr'
    intro a ha ha'
    obtain ⟨c, hc, rfl⟩ := List.mem_map.1 ha
    obtain ⟨c', hc', e⟩ := List.mem_map.1 ha'
    rw [List.mem_range] at hc hc'
    exact hne (cellAddr_inj hw (by omega) (by omega) (by omega) (by omega) e).1.symm

/-! ### The ERROR check -/

/-- In ERROR nothing happens; in every other state the command runs. -/
theorem unlessError_cases (s : State) (command : Result) :
    (s.regs.state = .error ∧ unlessError s command = .next s) ∨
      (s.regs.state ≠ .error ∧ unlessError s command = command) := by
  by_cases h : s.regs.state = .error
  · exact .inl ⟨h, if_pos h⟩
  · exact .inr ⟨h, if_neg h⟩

@[simp] theorem unlessError_of_error {s : State} (command : Result) (h : s.regs.state = .error) :
    unlessError s command = .next s := if_pos h

@[simp] theorem unlessError_of_ne {s : State} (command : Result) (h : s.regs.state ≠ .error) :
    unlessError s command = command := if_neg h

/-! ### START's clearing writes (R114) -/

/-- A run of clearing writes changes ERR and the trace only. -/
theorem clear_foldl (l : List ErrAddr) (v : F64) (s : State) :
    let t := l.foldl (fun s a => errWrite a v s) s
    t.regs = s.regs ∧ t.roms = s.roms ∧ t.input = s.input ∧ t.out = s.out
      ∧ t.outReady = s.outReady ∧ t.heldBeat = s.heldBeat ∧ t.frame = s.frame
      ∧ t.errTrace = s.errTrace ++ l.map (fun a => .write a v)
      ∧ t.err = l.foldl (fun m a => m.writeWord a v) s.err := by
  induction l generalizing s with
  | nil => simp
  | cons a rest ih =>
    obtain ⟨h1, h2, h3, h4, h5, h6, h7, h8, h9⟩ := ih (errWrite a v s)
    simp only [List.foldl_cons]
    refine ⟨h1, h2, h3, h4, h5, h6, h7, ?_, h9⟩
    rw [h8]; simp

theorem wf_foldl_writeWord (l : List ErrAddr) (v : F64) {m : Memory} (hm : m.wf = true) :
    (l.foldl (fun m a => m.writeWord a v) m).wf = true := by
  induction l generalizing m with
  | nil => exact hm
  | cons a rest ih => exact ih (wf_writeWord a v hm)

theorem readWord_foldl_writeWord (l : List ErrAddr) (v : F64) (m : Memory) (a : ErrAddr) :
    (l.foldl (fun m a => m.writeWord a v) m).readWord a = if a ∈ l then v else m.readWord a := by
  induction l generalizing m with
  | nil => simp
  | cons b rest ih =>
    rw [List.foldl_cons, ih, readWord_writeWord]
    by_cases h : a ∈ rest <;> by_cases e : a = b <;> simp [h, e]

theorem wordWritten_foldl_writeWord (l : List ErrAddr) (v : F64) (m : Memory) (a : ErrAddr) :
    (l.foldl (fun m a => m.writeWord a v) m).wordWritten a = (decide (a ∈ l) || m.wordWritten a) := by
  induction l generalizing m with
  | nil => simp
  | cons b rest ih =>
    rw [List.foldl_cons, ih, wordWritten_writeWord]
    by_cases h : a ∈ rest <;> by_cases e : a = b <;> simp [h, e]

/-- A byte in none of the words of a list is as before. -/
theorem readByte_foldl_writeWord (l : List ErrAddr) (v : F64) (m : Memory) (b : Nat)
    (hb : ∀ a ∈ l, ¬ (byteAddr a ≤ b ∧ b < byteAddr a + 8)) :
    (l.foldl (fun m a => m.writeWord a v) m).readByte b = m.readByte b := by
  induction l generalizing m with
  | nil => rfl
  | cons a rest ih =>
    rw [List.foldl_cons, ih _ (fun a' h' => hb a' (by simp [h'])), readByte_writeWord, if_neg (hb a (by simp))]

/-! ### DISTRIB's additions (R90) -/

/-- The accesses of a run of ErrAdds, from the memory it starts with. -/
def addAccesses : List (ErrAddr × F64) → Memory → List ErrAccess
  | [], _ => []
  | (a, t) :: rest, m =>
    .read a :: .write a (add64 (m.readWord a) t) :: addAccesses rest (m.writeWord a (add64 (m.readWord a) t))

/-- The memory after a run of ErrAdds. -/
def addMemory (adds : List (ErrAddr × F64)) (m : Memory) : Memory :=
  adds.foldl (fun m x => m.writeWord x.1 (add64 (m.readWord x.1) x.2)) m

/-- A run of ErrAdds changes ERR and the trace only. -/
theorem addAll_spec (adds : List (ErrAddr × F64)) (s : State) :
    addAll adds s =
      { s with err := addMemory adds s.err, errTrace := s.errTrace ++ addAccesses adds s.err } := by
  induction adds generalizing s with
  | nil => simp [addAll, addMemory, addAccesses]
  | cons x rest ih =>
    have h := ih (errAdd x.1 x.2 s)
    rw [addAll] at h ⊢
    rw [List.foldl_cons, h]
    simp [addMemory, addAccesses]

@[simp] theorem addAll_regs (adds : List (ErrAddr × F64)) (s : State) : (addAll adds s).regs = s.regs := by
  rw [addAll_spec]
@[simp] theorem addAll_roms (adds : List (ErrAddr × F64)) (s : State) : (addAll adds s).roms = s.roms := by
  rw [addAll_spec]
@[simp] theorem addAll_input (adds : List (ErrAddr × F64)) (s : State) : (addAll adds s).input = s.input := by
  rw [addAll_spec]
@[simp] theorem addAll_out (adds : List (ErrAddr × F64)) (s : State) : (addAll adds s).out = s.out := by
  rw [addAll_spec]
@[simp] theorem addAll_err (adds : List (ErrAddr × F64)) (s : State) :
    (addAll adds s).err = addMemory adds s.err := by
  rw [addAll_spec]
@[simp] theorem addAll_outReady (adds : List (ErrAddr × F64)) (s : State) : (addAll adds s).outReady = s.outReady := by
  rw [addAll_spec]
@[simp] theorem addAll_heldBeat (adds : List (ErrAddr × F64)) (s : State) : (addAll adds s).heldBeat = s.heldBeat := by
  rw [addAll_spec]
@[simp] theorem addAll_frame (adds : List (ErrAddr × F64)) (s : State) : (addAll adds s).frame = s.frame := by
  rw [addAll_spec]
@[simp] theorem addAll_errTrace (adds : List (ErrAddr × F64)) (s : State) :
    (addAll adds s).errTrace = s.errTrace ++ addAccesses adds s.err := by
  rw [addAll_spec]

/-- Each ErrAdd is two accesses (R50). -/
@[simp] theorem length_addAccesses (adds : List (ErrAddr × F64)) (m : Memory) :
    (addAccesses adds m).length = 2 * adds.length := by
  induction adds generalizing m with
  | nil => rfl
  | cons x rest ih => simp only [addAccesses, List.length_cons, ih]; omega

theorem wf_addMemory (adds : List (ErrAddr × F64)) {m : Memory} (hm : m.wf = true) : (addMemory adds m).wf = true := by
  induction adds generalizing m with
  | nil => exact hm
  | cons x rest ih => exact ih (wf_writeWord _ _ hm)

/-- A word that is no target keeps its value. -/
theorem readWord_addMemory_ne (adds : List (ErrAddr × F64)) (m : Memory) (a : ErrAddr)
    (ha : ∀ x ∈ adds, x.1 ≠ a) : (addMemory adds m).readWord a = m.readWord a := by
  induction adds generalizing m with
  | nil => rfl
  | cons x rest ih =>
    have := ih (m.writeWord x.1 (add64 (m.readWord x.1) x.2)) (fun y hy => ha y (by simp [hy]))
    rw [addMemory, List.foldl_cons]
    rw [addMemory] at this
    rw [this, readWord_writeWord_ne _ (Ne.symm (ha x (by simp)))]

/-- With different targets, each target's term is added to its value once. -/
theorem readWord_addMemory_mem (adds : List (ErrAddr × F64)) (m : Memory) (hn : (adds.map (·.1)).Nodup)
    {a : ErrAddr} {t : F64} (hx : (a, t) ∈ adds) : (addMemory adds m).readWord a = add64 (m.readWord a) t := by
  induction adds generalizing m with
  | nil => simp at hx
  | cons x rest ih =>
    rw [List.map_cons, List.nodup_cons] at hn
    rw [addMemory, List.foldl_cons]
    rcases List.mem_cons.1 hx with rfl | hx
    · have := readWord_addMemory_ne rest (m.writeWord a (add64 (m.readWord a) t)) a
        (fun y hy e => hn.1 (by rw [← e]; exact List.mem_map.2 ⟨y, hy, rfl⟩))
      rw [addMemory] at this
      rw [this, readWord_writeWord_same]
    · have := ih (m.writeWord x.1 (add64 (m.readWord x.1) x.2)) hn.2 hx
      rw [addMemory] at this
      rw [this, readWord_writeWord_ne]
      rintro rfl
      exact hn.1 (List.mem_map.2 ⟨_, hx, rfl⟩)

/-- A byte in none of the targets is as before. -/
theorem readByte_addMemory (adds : List (ErrAddr × F64)) (m : Memory) (b : Nat)
    (hb : ∀ x ∈ adds, ¬ (byteAddr x.1 ≤ b ∧ b < byteAddr x.1 + 8)) :
    (addMemory adds m).readByte b = m.readByte b := by
  induction adds generalizing m with
  | nil => rfl
  | cons x rest ih =>
    have := ih (m.writeWord x.1 (add64 (m.readWord x.1) x.2)) (fun y hy => hb y (by simp [hy]))
    rw [addMemory] at this
    rw [addMemory, List.foldl_cons, this, readByte_writeWord, if_neg (hb x (by simp))]

/-- ErrAdds un-list nothing. -/
theorem wordWritten_addMemory (adds : List (ErrAddr × F64)) (m : Memory) (a : ErrAddr)
    (h : m.wordWritten a = true) : (addMemory adds m).wordWritten a = true := by
  induction adds generalizing m with
  | nil => exact h
  | cons x rest ih => exact ih _ (by rw [wordWritten_writeWord, h, Bool.or_true])

/-- The additions a pixel issues (R90, R93): exactly these. -/
theorem mem_additions {w h r c : Nat} {t : Terms} {x : ErrAddr × F64} :
    x ∈ additions w h r c t ↔
      (c + 1 < w ∧ x = (cellAddr w r (c + 1), t.right))
        ∨ ((r + 1 < h ∧ 1 ≤ c) ∧ x = (cellAddr w (r + 1) (c - 1), t.downLeft))
        ∨ (r + 1 < h ∧ x = (cellAddr w (r + 1) c, t.down)) := by
  simp only [additions, List.mem_append]
  by_cases h1 : c + 1 < w <;> by_cases h2 : r + 1 < h ∧ 1 ≤ c <;> by_cases h3 : r + 1 < h <;>
    simp [h1, h2, h3, or_assoc]

/-- Every target is an image cell of the frame (R42, R93). -/
theorem additions_target {w h r c : Nat} {t : Terms} {x : ErrAddr × F64} (hr : r < h) (hc : c < w)
    (hx : x ∈ additions w h r c t) : ∃ r' c', r' < h ∧ c' < w ∧ x.1 = cellAddr w r' c' := by
  rcases mem_additions.1 hx with ⟨h1, rfl⟩ | ⟨h1, rfl⟩ | ⟨h1, rfl⟩
  · exact ⟨r, c + 1, hr, h1, rfl⟩
  · exact ⟨r + 1, c - 1, h1.1, by omega, rfl⟩
  · exact ⟨r + 1, c, h1, hc, rfl⟩

/-- The targets of one pixel are different words. -/
theorem nodup_additions {w h r c : Nat} (t : Terms) (hw : w < 2 ^ 16) (hh : h < 2 ^ 16) (hr : r < 2 ^ 16)
    (hc : c < 2 ^ 16) : ((additions w h r c t).map (·.1)).Nodup := by
  have e1 : c + 1 < w → (cellAddr w r (c + 1)).toNat = r * (w + 1) + c + 1 := fun h1 => by
    rw [cellAddr_toNat hw hr (by omega)]; rfl
  have e2 : r + 1 < h → (cellAddr w (r + 1) c).toNat = r * (w + 1) + w + 1 + c := fun h2 => by
    rw [cellAddr_toNat hw (by omega) hc, Nat.add_mul, Nat.one_mul]; omega
  have e3 : r + 1 < h → 1 ≤ c → (cellAddr w (r + 1) (c - 1)).toNat = r * (w + 1) + w + c := fun h2 h3 => by
    rw [cellAddr_toNat hw (by omega) (by omega), Nat.add_mul, Nat.one_mul]; omega
  have n1 : c + 1 < w → r + 1 < h → cellAddr w r (c + 1) ≠ cellAddr w (r + 1) c := fun h1 h2 e => by
    have := congrArg BitVec.toNat e
    rw [e1 h1, e2 h2] at this; omega
  have n2 : c + 1 < w → r + 1 < h → 1 ≤ c → cellAddr w r (c + 1) ≠ cellAddr w (r + 1) (c - 1) := fun h1 h2 h3 e => by
    have := congrArg BitVec.toNat e
    rw [e1 h1, e3 h2 h3] at this; omega
  have n3 : r + 1 < h → 1 ≤ c → cellAddr w (r + 1) (c - 1) ≠ cellAddr w (r + 1) c := fun h2 h3 e => by
    have := congrArg BitVec.toNat e
    rw [e2 h2, e3 h2 h3] at this; omega
  by_cases h1 : c + 1 < w <;> by_cases h2 : r + 1 < h <;> by_cases h3 : 1 ≤ c <;>
    simp only [additions, h1, h2, h3, and_self, and_true, and_false, if_true, if_false, List.nil_append,
      List.append_nil, List.cons_append, List.map_cons, List.map_nil, List.nodup_cons, List.mem_cons,
      List.not_mem_nil, or_false, not_or, not_false_eq_true, List.nodup_nil] <;>
    simp_all

/-- How many terms a pixel adds depends only on its position and the frame's size (R93), and is at most three. -/
theorem length_additions_le (w h r c : Nat) (t : Terms) : (additions w h r c t).length ≤ 3 := by
  unfold additions
  split_ifs <;> simp

/-! ### Accesses kept by a mask -/

theorem keepBy_subset {α : Type} {mask : List Bool} {l : List α} {x : α} (h : x ∈ keepBy mask l) : x ∈ l := by
  induction mask generalizing l with
  | nil => simp [keepBy] at h
  | cons k mask ih =>
    cases l with
    | nil => cases k <;> simp [keepBy] at h
    | cons y l =>
      cases k with
      | true =>
        rcases List.mem_cons.1 h with rfl | h
        · simp
        · exact List.mem_cons_of_mem _ (ih h)
      | false => exact List.mem_cons_of_mem _ (ih h)

/-- The mask that a predicate makes keeps exactly what the predicate keeps. -/
theorem keepBy_map {α : Type} (p : α → Bool) (l : List α) : keepBy (l.map p) l = l.filter p := by
  induction l with
  | nil => rfl
  | cons x l ih => cases h : p x <;> simp [keepBy, h, ih]

theorem wf_applyWrites (accesses : List ErrAccess) {m : Memory} (hm : m.wf = true) :
    (applyWrites accesses m).wf = true := by
  induction accesses generalizing m with
  | nil => exact hm
  | cons x rest ih =>
    cases x with
    | read a => exact ih hm
    | write a v => exact ih (wf_writeWord a v hm)

/-- Every word after some writes holds what one of them wrote, or is as before. -/
theorem readWord_applyWrites (accesses : List ErrAccess) (m : Memory) (a : ErrAddr) :
    (∃ v, .write a v ∈ accesses ∧ (applyWrites accesses m).readWord a = v) ∨
      ((∀ v, .write a v ∉ accesses) ∧ (applyWrites accesses m).readWord a = m.readWord a) := by
  induction accesses generalizing m with
  | nil => exact .inr ⟨by simp, rfl⟩
  | cons x rest ih =>
    cases x with
    | read b =>
      rcases ih m with ⟨v, h, e⟩ | ⟨h, e⟩
      · exact .inl ⟨v, by simp [h], e⟩
      · exact .inr ⟨by simpa using h, e⟩
    | write b w =>
      rcases ih (m.writeWord b w) with ⟨v, h, e⟩ | ⟨h, e⟩
      · exact .inl ⟨v, by simp [h], e⟩
      · by_cases hb : a = b
        · subst hb
          exact .inl ⟨w, by simp, by rw [applyWrites, List.foldl_cons]; rw [applyWrites] at e; rw [e, readWord_writeWord_same]⟩
        · refine .inr ⟨by simpa [hb] using h, ?_⟩
          rw [applyWrites, List.foldl_cons]; rw [applyWrites] at e
          rw [e, readWord_writeWord_ne _ hb]

/-! ### Reset during a command -/

@[simp] theorem abandon_regs (s t : State) (kept : List Bool) (b : Bool) : (abandon s t kept b).regs = Regs.reset := rfl
@[simp] theorem abandon_roms (s t : State) (kept : List Bool) (b : Bool) : (abandon s t kept b).roms = s.roms := rfl
@[simp] theorem abandon_input (s t : State) (kept : List Bool) (b : Bool) : (abandon s t kept b).input = s.input := rfl
@[simp] theorem abandon_out (s t : State) (kept : List Bool) (b : Bool) :
    (abandon s t kept b).out = if b then t.out else s.out := rfl
@[simp] theorem abandon_err (s t : State) (kept : List Bool) (b : Bool) :
    (abandon s t kept b).err = applyWrites (keepBy kept (issued s t)) s.err := rfl
@[simp] theorem abandon_errTrace (s t : State) (kept : List Bool) (b : Bool) :
    (abandon s t kept b).errTrace = s.errTrace ++ keepBy kept (issued s t) := rfl

@[simp] theorem abandon_outReady (s t : State) (kept : List Bool) (b : Bool) :
    (abandon s t kept b).outReady = s.outReady := rfl
@[simp] theorem abandon_heldBeat (s t : State) (kept : List Bool) (b : Bool) :
    (abandon s t kept b).heldBeat = none := rfl
@[simp] theorem abandon_frame (s t : State) (kept : List Bool) (b : Bool) : (abandon s t kept b).frame = none := rfl

/-- What a command appended to the trace is what it issued. -/
theorem issued_of_append {s t : State} {l : List ErrAccess} (h : t.errTrace = s.errTrace ++ l) : issued s t = l := by
  rw [issued, h, List.drop_left]

/-! ### Which event is taken -/

/-- With no beat held the oldest event is taken. -/
@[simp] theorem takeable_free (input : List Input) :
    takeable false input = match input with | [] => none | event :: rest => some (event, rest) := by
  cases input <;> rfl

/-- An event that is no word is taken when it is the oldest, whether the block holds or not. -/
theorem takeable_of_not_word {event : Input} (holding : Bool) (rest : List Input) (h : event.isWord = false) :
    takeable holding (event :: rest) = some (event, rest) := by
  simp [takeable, h]

/-- While the block holds, no word is taken. -/
theorem takeable_holding {input rest : List Input} {event : Input} (h : takeable true input = some (event, rest)) :
    event.isWord = false := by
  induction input generalizing rest with
  | nil => cases h
  | cons e l ih =>
    cases hw : e.isWord with
    | false => simp only [takeable, hw, Bool.and_false, Bool.false_eq_true, if_false, Option.some.injEq, Prod.mk.injEq] at h; rw [← h.1, hw]
    | true =>
      simp only [takeable, hw, Bool.and_self, if_true, Option.map_eq_some_iff, Prod.mk.injEq] at h
      obtain ⟨⟨e', r'⟩, h1, h2, -⟩ := h
      subst h2
      exact ih h1

/-- With only words offered, the holding block takes nothing. -/
theorem takeable_words {input : List Input} (h : ∀ e ∈ input, e.isWord = true) : takeable true input = none := by
  induction input with
  | nil => rfl
  | cons e l ih => simp [takeable, h e (by simp), ih (fun x hx => h x (by simp [hx]))]

end Sys2Proof.Laws
end

