-- ==== Sys2Proof/Laws/Commands.lean ====
section
/-! SUPPORT. What each command can do, said once (inversion lemmas): the cases of every meaning, with the state each case
leaves. -/

namespace Sys2Proof.Laws

open Machine

/-! ### The setup commands -/

/-- NOP answers the state it was given, in every state (R111, R110). -/
theorem execNop_eq (s : State) : execNop s = .next s := by
  rcases unlessError_cases s (.next s) with ⟨_, h⟩ | ⟨_, h⟩ <;> exact h

theorem execSetw_cases (w : Dim) (s : State) :
    (s.regs.state = .error ∧ execSetw w s = .next s)
      ∨ (s.regs.state = .run ∧ execSetw w s = .next (takeFault .badState (encode (.setw w)) s))
      ∨ ((s.regs.state = .idle ∨ s.regs.state = .done)
          ∧ execSetw w s = .next { s with regs := { s.regs with width := w } }) := by
  cases h : s.regs.state <;> simp [execSetw, raise, unlessError, h]

theorem execSeth_cases (h : Dim) (s : State) :
    (s.regs.state = .error ∧ execSeth h s = .next s)
      ∨ (s.regs.state = .run ∧ execSeth h s = .next (takeFault .badState (encode (.seth h)) s))
      ∨ ((s.regs.state = .idle ∨ s.regs.state = .done)
          ∧ execSeth h s = .next { s with regs := { s.regs with height := h } }) := by
  cases h : s.regs.state <;> simp [execSeth, raise, unlessError, h]

/-! ### START -/

/-- START's clearing writes (R114): only ERR and the trace change. -/
theorem clearCells_spec (w h : Nat) (s : State) :
    clearCells w h s =
      { s with
        err := (imageCells w h).foldl (fun m a => m.writeWord a posZero) s.err
        errTrace := s.errTrace ++ (imageCells w h).map (fun a => .write a posZero) } := by
  obtain ⟨h1, h2, h3, h4, h5, h6, h7, h8, h9⟩ := clear_foldl (imageCells w h) posZero s
  rw [clearCells]
  generalize (imageCells w h).foldl (fun s a => errWrite a posZero s) s = t at *
  cases t
  simp_all

/-- The state START leaves in IDLE and DONE. -/
def startState (s : State) : State :=
  let cells := imageCells s.regs.width.toNat s.regs.height.toNat
  { s with
    regs := startRegs s.regs
    err := cells.foldl (fun m a => m.writeWord a posZero) s.err
    errTrace := s.errTrace ++ cells.map (fun a => .write a posZero)
    frame := some ⟨s.regs.width, s.regs.height⟩ }

theorem execStart_cases (s : State) :
    (s.regs.state = .error ∧ execStart s = .next s)
      ∨ (s.regs.state = .run ∧ execStart s = .next (takeFault .badState (encode .start) s))
      ∨ ((s.regs.state = .idle ∨ s.regs.state = .done) ∧ execStart s = .next (startState s)) := by
  cases h : s.regs.state <;> simp [execStart, raise, unlessError, h, clearCells_spec, startState]

/-! ### PIXEL -/

/-- The additions of the pixel at (ROW, COL) for the corrected level `x`. -/
def pixelAdds (p n : Pix) (x : F64) (s : State) : List (ErrAddr × F64) :=
  additions s.regs.width.toNat s.regs.height.toNat s.regs.row.toNat s.regs.col.toNat
    (termsOf (coefRead s.roms p) (residualOf x (thresh s.roms x n)))

/-- The corrected level of a PIXEL that would execute now (R116). -/
def levelNow (p : Pix) (s : State) : F64 := correctedLevel p (s.err.readWord (currentCell s))

/-- The beat of a PIXEL that would execute now. -/
def beatNow (p n : Pix) (s : State) : Beat := beatOf (thresh s.roms (levelNow p s) n)

/-- The state a PIXEL leaves in RUN when its corrected level is finite and the host withholds its beat: its additions are
made, its beat is held, and the registers are as before. -/
def heldState (p n : Pix) (s : State) : State :=
  let x := levelNow p s
  { s with
    err := addMemory (pixelAdds p n x s) s.err
    errTrace := s.errTrace ++ .read (currentCell s) :: addAccesses (pixelAdds p n x s) s.err
    heldBeat := some (beatNow p n s) }

/-- The state a PIXEL leaves in RUN when its corrected level is finite and the host takes its beat. -/
def pixelState (p n : Pix) (s : State) : State :=
  let x := levelNow p s
  { s with
    regs := advanceRegs s.regs
    err := addMemory (pixelAdds p n x s) s.err
    out := s.out ++ [beatNow p n s]
    errTrace := s.errTrace ++ .read (currentCell s) :: addAccesses (pixelAdds p n x s) s.err }

theorem execPixel_cases (p n : Pix) (s : State) :
    (s.regs.state = .error ∧ execPixel p n s = .next s)
      ∨ ((s.regs.state = .idle ∨ s.regs.state = .done)
          ∧ execPixel p n s = .next (takeFault .badState (encode (.pixel p n)) s))
      ∨ (s.regs.state = .run ∧ isFinite (levelNow p s) = false
          ∧ execPixel p n s =
            .next (takeFault .nonfinite (encode (.pixel p n)) (errRead (currentCell s) s).2))
      ∨ (s.regs.state = .run ∧ isFinite (levelNow p s) = true ∧ s.outReady = true
          ∧ execPixel p n s = .next (pixelState p n s))
      ∨ (s.regs.state = .run ∧ isFinite (levelNow p s) = true ∧ s.outReady = false
          ∧ execPixel p n s = .next (heldState p n s)) := by
  cases h : s.regs.state
  · simp [execPixel, raise, unlessError, h]
  · cases hf : isFinite (levelNow p s)
    · rw [levelNow] at hf
      simp [execPixel, raise, unlessError, h, hf]
    · have hf' := hf
      rw [levelNow] at hf'
      simp only [execPixel, unlessError, h, ne_eq, reduceCtorEq, not_true_eq_false, if_false, errRead_fst, hf', if_true,
        pixelStep, distrib, errRead_snd_regs, errRead_snd_roms]
      cases hr : s.outReady <;>
        simp [pixelState, heldState, beatNow, offerBeat, finishPixel, advance, emit, errRead, addAll_spec, pixelAdds,
          levelNow, hr]
  · simp [execPixel, raise, unlessError, h]
  · simp [execPixel, unlessError, h]

/-! ### The host takes or withholds beats (R155 (e)) -/

/-- Without a held beat only the host's readiness changes; taking a held beat sends it and ends its PIXEL. -/
theorem setOutReady_cases (ready : Bool) (s : State) :
    ((s.heldBeat = none ∨ ready = false) ∧ setOutReady ready s = { s with outReady := ready })
      ∨ (∃ b, s.heldBeat = some b ∧ ready = true
          ∧ setOutReady ready s =
            { s with outReady := true, heldBeat := none, out := s.out ++ [b], regs := advanceRegs s.regs }) := by
  cases h : s.heldBeat <;> cases ready <;> simp [setOutReady, finishPixel, advance, emit, h]

/-- A beat withheld and then taken leaves what a beat taken at once leaves: the hold only delays. -/
theorem setOutReady_heldState (p n : Pix) (s : State) (h : s.heldBeat = none) :
    setOutReady true (heldState p n s) = pixelState p n { s with outReady := true } := by
  simp [setOutReady, heldState, pixelState, finishPixel, advance, emit, beatNow, levelNow, pixelAdds, currentCell, h]

end Sys2Proof.Laws
end

