-- ==== Sys2Proof/Laws/Decode.lean ====
section
/-! SUPPORT. What each field of a command word is as a number, the decoder by cases on the word's number, and the number of
each command's word: what a later proof about words cites instead of unfolding bits. -/

namespace Sys2Proof.Laws

open Machine

theorem opField_toNat (cmd : Word) : (opField cmd).toNat = cmd.toNat / 2 ^ 28 := by
  have := cmd.isLt
  simp [opField, BitVec.extractLsb'_toNat, Nat.shiftRight_eq_div_pow]
  omega

theorem rsv28Field_ne_zero (cmd : Word) : rsv28Field cmd ≠ 0 ↔ cmd.toNat % 2 ^ 28 ≠ 0 := by
  rw [ne_eq, ← BitVec.toNat_inj]
  simp [rsv28Field, BitVec.extractLsb'_toNat]

theorem rsv12Field_ne_zero (cmd : Word) : rsv12Field cmd ≠ 0 ↔ cmd.toNat / 2 ^ 16 % 2 ^ 12 ≠ 0 := by
  rw [ne_eq, ← BitVec.toNat_inj]
  simp [rsv12Field, BitVec.extractLsb'_toNat, Nat.shiftRight_eq_div_pow]

theorem imm16Field_toNat (cmd : Word) : (imm16Field cmd).toNat = cmd.toNat % 2 ^ 16 := by
  simp [imm16Field, BitVec.extractLsb'_toNat]

theorem levelField_toNat (cmd : Word) : (levelField cmd).toNat = cmd.toNat % 2 ^ 8 := by
  simp [levelField, BitVec.extractLsb'_toNat]

theorem noiseField_toNat (cmd : Word) : (noiseField cmd).toNat = cmd.toNat / 2 ^ 8 % 2 ^ 8 := by
  simp [noiseField, BitVec.extractLsb'_toNat, Nat.shiftRight_eq_div_pow]

/-- The decoder, every field a number. -/
theorem decode_eq (cmd : Word) :
    decode cmd =
      match cmd.toNat / 2 ^ 28 with
      | 0 => if cmd.toNat % 2 ^ 28 ≠ 0 then .reservedField else .instr .nop
      | 1 => if cmd.toNat / 2 ^ 16 % 2 ^ 12 ≠ 0 then .reservedField else .instr (.setw (imm16Field cmd))
      | 2 => if cmd.toNat / 2 ^ 16 % 2 ^ 12 ≠ 0 then .reservedField else .instr (.seth (imm16Field cmd))
      | 3 => if cmd.toNat % 2 ^ 28 ≠ 0 then .reservedField else .instr .start
      | 4 => if cmd.toNat / 2 ^ 16 % 2 ^ 12 ≠ 0 then .reservedField
          else .instr (.pixel (levelField cmd) (noiseField cmd))
      | _ => .illegalOpcode := by
  unfold decode
  simp only [opField_toNat, rsv28Field_ne_zero, rsv12Field_ne_zero]
  all_goals rfl

theorem append_toNat {m n : Nat} (a : BitVec m) (b : BitVec n) :
    (a ++ b).toNat = a.toNat * 2 ^ n + b.toNat := by
  rw [BitVec.toNat_append, ← Nat.shiftLeft_add_eq_or_of_lt b.isLt, Nat.shiftLeft_eq]

/-- The number of a command's word: its opcode and operands at their places, every other bit 0. -/
theorem encode_toNat (i : Instr) :
    (encode i).toNat =
      match i with
      | .nop => 0
      | .setw w => 2 ^ 28 + w.toNat
      | .seth h => 2 * 2 ^ 28 + h.toNat
      | .start => 3 * 2 ^ 28
      | .pixel p n => 4 * 2 ^ 28 + n.toNat * 2 ^ 8 + p.toNat := by
  cases i with
  | nop => decide
  | start => decide
  | setw w => simp only [encode, formatD, append_toNat]; simp
  | seth h => simp only [encode, formatD, append_toNat]; simp
  | pixel p n => simp only [encode, formatP, append_toNat]; simp; omega

/-- The bits under the mask of formats D and P are OP and RSV12, the upper half of the word. -/
theorem and_upper_mask (cmd : Word) : cmd &&& 0xFFFF0000#32 = BitVec.ofNat 32 (cmd.toNat / 2 ^ 16 * 2 ^ 16) := by
  apply BitVec.eq_of_getLsbD_eq
  intro i hi
  have mask : ∀ i : Fin 32, (0xFFFF0000#32).getLsbD i.1 = decide (16 ≤ i.1) := by decide
  have maskBit : (0xFFFF0000#32).getLsbD i = decide (16 ≤ i) := mask ⟨i, hi⟩
  rw [BitVec.getLsbD_and, maskBit, BitVec.getLsbD_ofNat, ← Nat.shiftRight_eq_div_pow, ← Nat.shiftLeft_eq,
    Nat.testBit_shiftLeft, Nat.testBit_shiftRight]
  by_cases h : 16 ≤ i
  · simp [h, hi, BitVec.getLsbD]
  · simp [h]

end Sys2Proof.Laws
end

