-- ==== Sys2Proof/Laws/Float64.lean ====
section
/-! SUPPORT. The laws of the binary64 operations: the layout, the order of magnitudes, exactness and monotonicity of rounding,
and what they give for the operations of R11. -/

namespace Sys2Proof.Laws

open Machine

/-! ### The layout -/

/-- The magnitude that 63 low bits stand for, in units of 2^-1074. -/
def magOf (bits : Nat) : Nat :=
  if bits / 2 ^ 52 = 0 then bits % 2 ^ 52 else (2 ^ 52 + bits % 2 ^ 52) * 2 ^ (bits / 2 ^ 52 - 1)

/-- The 63 low bits of a pattern. -/
def magBits (a : F64) : Nat := a.toNat % 2 ^ 63

theorem magBits_lt (a : F64) : magBits a < 2 ^ 63 := Nat.mod_lt _ (by decide)

theorem signBit_iff (a : F64) : signBit a = true ↔ 2 ^ 63 ≤ a.toNat := by
  have h : signBit a = a.msb := by
    rw [signBit, BitVec.msb_eq_getLsbD_last]
  rw [h, BitVec.msb_eq_decide, decide_eq_true_eq]

theorem expField_eq (a : F64) : expField a = magBits a / 2 ^ 52 := by
  simp only [expField, magBits]; omega

theorem fracField_eq (a : F64) : fracField a = magBits a % 2 ^ 52 := by
  simp only [fracField, magBits]; omega

theorem magUnits_eq (a : F64) : magUnits a = magOf (magBits a) := by
  simp only [magUnits, magOf, expField_eq, fracField_eq]

theorem toNat_packBits (neg : Bool) {b : Nat} (hb : b < 2 ^ 63) :
    (packBits neg b).toNat = (if neg then 2 ^ 63 else 0) + b := by
  rw [packBits, BitVec.toNat_ofNat, Nat.mod_eq_of_lt]
  split <;> omega

@[simp] theorem signBit_packBits (neg : Bool) {b : Nat} (hb : b < 2 ^ 63) : signBit (packBits neg b) = neg := by
  rw [Bool.eq_iff_iff, signBit_iff, toNat_packBits neg hb]
  cases neg
  · simp; omega
  · simp

@[simp] theorem magBits_packBits (neg : Bool) {b : Nat} (hb : b < 2 ^ 63) : magBits (packBits neg b) = b := by
  rw [magBits, toNat_packBits neg hb]
  cases neg <;> simp <;> omega

/-- A pattern is its sign and its other bits. -/
theorem packBits_self (a : F64) : packBits (signBit a) (magBits a) = a := by
  apply BitVec.eq_of_toNat_eq
  rw [toNat_packBits _ (magBits_lt a)]
  have := a.isLt
  by_cases h : signBit a = true
  · have h' := (signBit_iff a).1 h
    rw [h, magBits]; simp only [if_true]; omega
  · have h' : ¬ 2 ^ 63 ≤ a.toNat := fun hc => h ((signBit_iff a).2 hc)
    rw [Bool.not_eq_true] at h
    rw [h, magBits]; simp only [Bool.false_eq_true, if_false]; omega

/-- Two patterns with the same sign and the same other bits are equal. -/
theorem eq_of_sign_mag {a b : F64} (hs : signBit a = signBit b) (hm : magBits a = magBits b) : a = b := by
  rw [← packBits_self a, ← packBits_self b, hs, hm]

theorem isFinite_iff (a : F64) : isFinite a = true ↔ magBits a < infBits := by
  have := magBits_lt a
  simp only [isFinite, expField_eq, infBits, decide_eq_true_eq]
  omega

theorem isInf_iff (a : F64) : isInf a = true ↔ magBits a = infBits := by
  have := magBits_lt a
  simp only [isInf, expField_eq, fracField_eq, infBits, Bool.and_eq_true, decide_eq_true_eq]
  omega

theorem isNaN_iff (a : F64) : isNaN a = true ↔ infBits < magBits a := by
  have := magBits_lt a
  simp only [isNaN, expField_eq, fracField_eq, infBits, Bool.and_eq_true, decide_eq_true_eq]
  omega

theorem isZero_iff (a : F64) : isZero a = true ↔ magBits a = 0 := by
  simp only [isZero, expField_eq, fracField_eq, Bool.and_eq_true, decide_eq_true_eq]
  omega

theorem isNaN_of_finite {a : F64} (h : isFinite a = true) : isNaN a = false := by
  rw [isFinite_iff] at h
  rw [← Bool.not_eq_true, isNaN_iff]; omega

theorem isInf_of_finite {a : F64} (h : isFinite a = true) : isInf a = false := by
  rw [isFinite_iff] at h
  rw [← Bool.not_eq_true, isInf_iff]; omega

/-! ### Magnitudes are ordered as their patterns -/

theorem magOf_lt_of_exp {b : Nat} (h : b / 2 ^ 52 ≠ 0) : magOf b < 2 ^ 53 * 2 ^ (b / 2 ^ 52 - 1) := by
  rw [magOf, if_neg h]
  exact Nat.mul_lt_mul_of_pos_right (by omega) (by positivity)

theorem magOf_ge_of_exp {b : Nat} (h : b / 2 ^ 52 ≠ 0) : 2 ^ 52 * 2 ^ (b / 2 ^ 52 - 1) ≤ magOf b := by
  rw [magOf, if_neg h]
  exact Nat.mul_le_mul_right _ (by omega)

theorem magOf_small {b : Nat} (h : b < 2 ^ 53) : magOf b = b := by
  rw [magOf]
  split
  · omega
  · have : b / 2 ^ 52 = 1 := by omega
    rw [this]; omega

theorem magOf_strictMono {b b' : Nat} (h : b < b') : magOf b < magOf b' := by
  by_cases h0 : b / 2 ^ 52 = 0
  · rw [magOf_small (b := b) (by omega)]
    by_cases h1 : b' < 2 ^ 53
    · rwa [magOf_small h1]
    · have := magOf_ge_of_exp (b := b') (by omega)
      have h2 : 2 ^ 1 ≤ 2 ^ (b' / 2 ^ 52 - 1) := Nat.pow_le_pow_right (by decide) (by omega)
      have h3 : 2 ^ 52 * 2 ^ 1 ≤ 2 ^ 52 * 2 ^ (b' / 2 ^ 52 - 1) := Nat.mul_le_mul_left _ h2
      omega
  · by_cases he : b / 2 ^ 52 = b' / 2 ^ 52
    · rw [magOf, if_neg h0, magOf, if_neg (by omega), he]
      exact Nat.mul_lt_mul_of_pos_right (by omega) (by positivity)
    · have h1 := magOf_lt_of_exp h0
      have h2 := magOf_ge_of_exp (b := b') (by omega)
      have h3 : b / 2 ^ 52 - 1 + 1 ≤ b' / 2 ^ 52 - 1 := by omega
      have h4 : 2 ^ (b / 2 ^ 52 - 1 + 1) ≤ 2 ^ (b' / 2 ^ 52 - 1) := Nat.pow_le_pow_right (by decide) h3
      rw [Nat.pow_succ] at h4
      have h5 : 2 ^ 52 * (2 ^ (b / 2 ^ 52 - 1) * 2) ≤ 2 ^ 52 * 2 ^ (b' / 2 ^ 52 - 1) := Nat.mul_le_mul_left _ h4
      omega

theorem magOf_le_iff {b b' : Nat} : magOf b ≤ magOf b' ↔ b ≤ b' := by
  constructor
  · intro h
    by_contra hc
    have := magOf_strictMono (b := b') (b' := b) (by omega)
    omega
  · intro h
    rcases Nat.lt_or_eq_of_le h with h | rfl
    · exact Nat.le_of_lt (magOf_strictMono h)
    · exact Nat.le_refl _

theorem magOf_inj {b b' : Nat} (h : magOf b = magOf b') : b = b' := by
  have h1 := magOf_le_iff.1 (Nat.le_of_eq h)
  have h2 := magOf_le_iff.1 (Nat.le_of_eq h.symm)
  omega

theorem magOf_zero : magOf 0 = 0 := by decide

theorem magOf_eq_zero {b : Nat} : magOf b = 0 ↔ b = 0 :=
  ⟨fun h => magOf_inj (h.trans magOf_zero.symm), fun h => by rw [h, magOf_zero]⟩

/-! ### Rounding -/

theorem roundHalfEven_ge (n d : Nat) : n / d ≤ roundHalfEven n d := by
  simp only [roundHalfEven]; split <;> omega

theorem roundHalfEven_le (n d : Nat) : roundHalfEven n d ≤ n / d + 1 := by
  simp only [roundHalfEven]; split <;> omega

theorem roundHalfEven_exact (q : Nat) {d : Nat} (hd : 0 < d) : roundHalfEven (q * d) d = q := by
  simp only [roundHalfEven, Nat.mul_div_cancel q hd, Nat.mul_mod_left]
  rw [if_neg]; omega

theorem roundHalfEven_mono {n n' d : Nat} (h : n ≤ n') : roundHalfEven n d ≤ roundHalfEven n' d := by
  have hq : n / d ≤ n' / d := Nat.div_le_div_right h
  rcases Nat.lt_or_eq_of_le hq with hq | hq
  · have h1 := roundHalfEven_le n d
    have h2 := roundHalfEven_ge n' d
    omega
  · have h1 := Nat.div_add_mod n d
    have h2 := Nat.div_add_mod n' d
    rw [← hq] at h2
    have hr : n % d ≤ n' % d := by omega
    simp only [roundHalfEven, ← hq]
    split <;> split <;> omega

theorem roundBits_le_inf (n d : Nat) : roundBits n d ≤ infBits := by
  simp only [roundBits]; exact Nat.min_le_right _ _

theorem infBits_lt : infBits < 2 ^ 63 := by decide

theorem roundBits_lt (n d : Nat) : roundBits n d < 2 ^ 63 :=
  Nat.lt_of_le_of_lt (roundBits_le_inf n d) infBits_lt

/-- The significand's quotient is below 2^53. -/
theorem quotient_lt (n d : Nat) : n / (d * 2 ^ excessBits n d) < 2 ^ 53 := by
  rw [← Nat.div_div_eq_div_mul, Nat.div_lt_iff_lt_mul (by positivity), excessBits]
  have h : n / d < 2 ^ (Nat.log2 (n / d) + 1) := Nat.lt_log2_self
  refine Nat.lt_of_lt_of_le h ?_
  rw [← Nat.pow_add]
  exact Nat.pow_le_pow_right (by decide) (by omega)

/-- Above the subnormals it is at least 2^52. -/
theorem quotient_ge {n d : Nat} (h : 0 < excessBits n d) : 2 ^ 52 ≤ n / (d * 2 ^ excessBits n d) := by
  rw [← Nat.div_div_eq_div_mul, Nat.le_div_iff_mul_le (by positivity)]
  rw [excessBits] at h ⊢
  have h0 : n / d ≠ 0 := by
    intro hc
    rw [hc] at h
    simp at h
  rw [← Nat.pow_add, show 52 + (Nat.log2 (n / d) - 52) = Nat.log2 (n / d) by omega]
  exact Nat.log2_self_le h0

theorem excessBits_mono {n n' d : Nat} (h : n ≤ n') : excessBits n d ≤ excessBits n' d := by
  simp only [excessBits]
  have : Nat.log2 (n / d) ≤ Nat.log2 (n' / d) := by
    by_cases h0 : n / d = 0
    · rw [h0]; simp
    · have hq : n / d ≤ n' / d := Nat.div_le_div_right h
      have h0' : n' / d ≠ 0 := fun hc => h0 (Nat.le_zero.1 (hc ▸ hq))
      rw [Nat.le_log2 h0']
      exact Nat.le_trans (Nat.log2_self_le h0) hq
  omega

/-- Rounding is monotone. -/
theorem roundBits_mono {n n' d : Nat} (h : n ≤ n') : roundBits n d ≤ roundBits n' d := by
  have key : excessBits n d * 2 ^ 52 + roundHalfEven n (d * 2 ^ excessBits n d)
      ≤ excessBits n' d * 2 ^ 52 + roundHalfEven n' (d * 2 ^ excessBits n' d) := by
    rcases Nat.lt_or_eq_of_le (excessBits_mono (d := d) h) with hk | hk
    · have h1 := roundHalfEven_le n (d * 2 ^ excessBits n d)
      have h2 := quotient_lt n d
      have h3 := roundHalfEven_ge n' (d * 2 ^ excessBits n' d)
      have h4 := quotient_ge (n := n') (d := d) (by omega)
      omega
    · rw [hk]
      exact Nat.add_le_add_left (roundHalfEven_mono h) _
  simp only [roundBits]
  omega

theorem log2_scaled {m k : Nat} (h1 : 2 ^ 52 ≤ m) (h2 : m < 2 ^ 53) : Nat.log2 (m * 2 ^ k) = 52 + k := by
  rw [Nat.log2_eq_iff (by positivity)]
  constructor
  · rw [Nat.pow_add]; exact Nat.mul_le_mul_right _ h1
  · rw [show 52 + k + 1 = 53 + k by omega, Nat.pow_add]
    exact Nat.mul_lt_mul_of_pos_right h2 (by positivity)

/-- Rounding a representable magnitude gives that magnitude: rounding is exact where it can be. -/
theorem roundBits_exact {b d : Nat} (hd : 0 < d) (hb : b ≤ infBits) : roundBits (magOf b * d) d = b := by
  have hq : magOf b * d / d = magOf b := Nat.mul_div_cancel _ hd
  by_cases h : b < 2 ^ 53
  · have hm := magOf_small h
    have hk : excessBits (magOf b * d) d = 0 := by
      rw [excessBits, hq, hm]
      by_cases h0 : b = 0
      · subst h0; simp
      · have := (Nat.log2_lt h0).2 h
        omega
    simp only [roundBits, hk, Nat.pow_zero, Nat.mul_one, Nat.zero_mul, Nat.zero_add]
    rw [roundHalfEven_exact _ hd, hm]
    omega
  · have he : b / 2 ^ 52 ≠ 0 := by omega
    have hm : magOf b = (2 ^ 52 + b % 2 ^ 52) * 2 ^ (b / 2 ^ 52 - 1) := by rw [magOf, if_neg he]
    have hk : excessBits (magOf b * d) d = b / 2 ^ 52 - 1 := by
      rw [excessBits, hq, hm, log2_scaled (by omega) (by omega)]
      omega
    simp only [roundBits, hk]
    rw [hm, show (2 ^ 52 + b % 2 ^ 52) * 2 ^ (b / 2 ^ 52 - 1) * d = (2 ^ 52 + b % 2 ^ 52) * (d * 2 ^ (b / 2 ^ 52 - 1)) by ring,
      roundHalfEven_exact _ (by positivity)]
    omega

/-- A magnitude not above a representable one rounds to one not above it. -/
theorem roundBits_le {n b d : Nat} (hd : 0 < d) (hb : b ≤ infBits) (h : n ≤ magOf b * d) : roundBits n d ≤ b := by
  have := roundBits_mono (d := d) h
  rwa [roundBits_exact hd hb] at this

/-- A magnitude not below a representable one rounds to one not below it. -/
theorem roundBits_ge {n b d : Nat} (hd : 0 < d) (hb : b ≤ infBits) (h : magOf b * d ≤ n) : b ≤ roundBits n d := by
  have := roundBits_mono (d := d) h
  rwa [roundBits_exact hd hb] at this

/-- Only a magnitude below one unit can round to zero; a sum of two values never does. -/
theorem roundBits_ne_zero {n : Nat} (h : n ≠ 0) : roundBits n 1 ≠ 0 := by
  have h1 : magOf 1 = 1 := by decide
  have := roundBits_ge (n := n) (b := 1) (d := 1) (by decide) (by decide) (by rw [h1]; omega)
  omega

/-! ### Values -/

theorem valueUnits_packBits (neg : Bool) {b : Nat} (hb : b < 2 ^ 63) :
    valueUnits (packBits neg b) = if neg then -(magOf b : Int) else (magOf b : Int) := by
  rw [valueUnits, signBit_packBits neg hb, magUnits_eq, magBits_packBits neg hb]

theorem natAbs_valueUnits (a : F64) : (valueUnits a).natAbs = magOf (magBits a) := by
  rw [valueUnits, magUnits_eq]
  split <;> simp

theorem valueUnits_nonneg {a : F64} (h : signBit a = false) : valueUnits a = (magOf (magBits a) : Int) := by
  rw [valueUnits, h, magUnits_eq]; rfl

theorem valueUnits_neg {a : F64} (h : signBit a = true) : valueUnits a = -(magOf (magBits a) : Int) := by
  rw [valueUnits, h, magUnits_eq]; rfl

theorem valueUnits_eq_zero {a : F64} : valueUnits a = 0 ↔ magBits a = 0 := by
  rw [← Int.natAbs_eq_zero, natAbs_valueUnits, magOf_eq_zero]

/-- Rounding the exact value of a finite operand gives the operand (a zero takes the sign asked for). -/
theorem roundSum_exact {a : F64} {neg : Bool} (ha : isFinite a = true) (hz : magBits a = 0 → neg = signBit a) :
    roundSum (valueUnits a) neg = a := by
  rw [isFinite_iff] at ha
  rw [roundSum]
  split
  · rename_i h
    rw [valueUnits_eq_zero] at h
    rw [hz h, ← h, packBits_self]
  · rename_i h
    have hs : decide (valueUnits a < 0) = signBit a := by
      rw [Bool.eq_iff_iff, decide_eq_true_eq]
      rcases hb : signBit a with _ | _
      · rw [valueUnits_nonneg hb]; simp
      · rw [valueUnits_neg hb] at h ⊢
        simp; omega
    rw [hs, natAbs_valueUnits]
    have := roundBits_exact (b := magBits a) (d := 1) (by decide) (by omega)
    rw [Nat.mul_one] at this
    rw [this, packBits_self]

theorem unitsPerOne_pos : 0 < unitsPerOne := by decide +kernel

/-! ### `f64(n)` is exact below 2^53 (R11) -/

theorem exists_bits_of_nat {n : Nat} (h : n < 2 ^ 53) : ∃ b, b < infBits ∧ magOf b = n * unitsPerOne := by
  by_cases h0 : n = 0
  · exact ⟨0, by decide, by rw [h0, magOf_zero, Nat.zero_mul]⟩
  · -- the significand is n shifted up to 53 bits
    have hl : Nat.log2 n ≤ 52 := by have := (Nat.log2_lt h0).2 h; omega
    have h1 := Nat.log2_self_le h0
    have h2 : n < 2 ^ (Nat.log2 n + 1) := Nat.lt_log2_self
    generalize hj : Nat.log2 n = j at *
    have e1 : (2:Nat) ^ j * 2 ^ (52 - j) = 2 ^ 52 := by rw [← Nat.pow_add]; congr 1; omega
    have e2 : (2:Nat) ^ (j + 1) * 2 ^ (52 - j) = 2 ^ 53 := by rw [← Nat.pow_add]; congr 1; omega
    have m1 : 2 ^ 52 ≤ n * 2 ^ (52 - j) := by rw [← e1]; exact Nat.mul_le_mul_right _ h1
    have m2 : n * 2 ^ (52 - j) < 2 ^ 53 := by
      rw [← e2]; exact Nat.mul_lt_mul_of_pos_right h2 (by positivity)
    generalize hm : n * 2 ^ (52 - j) = m at *
    refine ⟨(j + 1022) * 2 ^ 52 + m, by simp only [infBits]; omega, ?_⟩
    have hd : ((j + 1022) * 2 ^ 52 + m) / 2 ^ 52 = j + 1023 := by omega
    have hf : ((j + 1022) * 2 ^ 52 + m) % 2 ^ 52 = m - 2 ^ 52 := by omega
    rw [magOf, if_neg (by omega), hd, hf, show 2 ^ 52 + (m - 2 ^ 52) = m by omega, ← hm, Nat.mul_assoc, ← Nat.pow_add]
    rw [unitsPerOne]
    exact congrArg (fun k => n * 2 ^ k) (by omega)

theorem f64_spec {n : Nat} (h : n < 2 ^ 53) :
    signBit (f64 n) = false ∧ isFinite (f64 n) = true ∧ magUnits (f64 n) = n * unitsPerOne := by
  obtain ⟨b, hb, hm⟩ := exists_bits_of_nat h
  have hr : roundBits (n * unitsPerOne) 1 = b := by
    rw [← hm]
    have := roundBits_exact (b := b) (d := 1) (by decide) (by omega)
    rwa [Nat.mul_one] at this
  have hlt : b < 2 ^ 63 := Nat.lt_trans hb infBits_lt
  rw [f64, hr]
  refine ⟨signBit_packBits _ hlt, ?_, ?_⟩
  · rw [isFinite_iff, magBits_packBits _ hlt]; exact hb
  · rw [magUnits_eq, magBits_packBits _ hlt, hm]

/-! ### Comparison -/

theorem ge64_iff {a b : F64} (ha : isNaN a = false) (hb : isNaN b = false) :
    ge64 a b = true ↔ valueUnits b ≤ valueUnits a := by
  simp [ge64, ha, hb]

theorem posZero_facts : signBit posZero = false ∧ magBits posZero = 0 ∧ isFinite posZero = true := by decide +kernel

theorem valueUnits_posZero : valueUnits posZero = 0 := by decide +kernel

theorem valueUnits_val128 : valueUnits val128 = 128 * unitsPerOne := by decide +kernel

theorem valueUnits_val255 : valueUnits val255 = 255 * unitsPerOne := by decide +kernel

theorem valueUnits_val1 : valueUnits val1 = unitsPerOne := by decide +kernel

theorem isNaN_consts : isNaN posZero = false ∧ isNaN val128 = false ∧ isNaN val255 = false ∧ isNaN val1 = false := by
  decide +kernel

theorem magBits_val1 : magBits val1 = 0x3FF0000000000000 := by decide +kernel

theorem signBit_val1 : signBit val1 = false := by decide +kernel

/-- Two non-negative values compare as their patterns do. -/
theorem ge64_nonneg_iff {a b : F64} (ha : isNaN a = false) (hb : isNaN b = false) (sa : signBit a = false)
    (sb : signBit b = false) : ge64 a b = true ↔ magBits b ≤ magBits a := by
  rw [ge64_iff ha hb, valueUnits_nonneg sa, valueUnits_nonneg sb, Int.ofNat_le, magOf_le_iff]

theorem isNaN_of_ge64 {a b : F64} (h : ge64 a b = true) : isNaN a = false ∧ isNaN b = false := by
  simp only [ge64, Bool.and_eq_true, Bool.not_eq_true'] at h
  exact h.1

/-- The entries R103 allows, by the comparisons of R11: the sign bit clear (so no -0.0) and 0.0 <= M <= 1.0. -/
theorem legalStrength_iff (m : F64) :
    legalStrength m = true ↔ signBit m = false ∧ ge64 m posZero = true ∧ ge64 val1 m = true := by
  rw [legalStrength, decide_eq_true_eq]
  constructor
  · intro h
    have hs : signBit m = false := by rw [← Bool.not_eq_true, signBit_iff]; omega
    have hm : magBits m = m.toNat := by rw [magBits]; omega
    have hn : isNaN m = false := by rw [← Bool.not_eq_true, isNaN_iff, hm]; simp only [infBits]; omega
    refine ⟨hs, ?_, ?_⟩
    · rw [ge64_nonneg_iff hn isNaN_consts.1 hs posZero_facts.1, posZero_facts.2.1]
      exact Nat.zero_le _
    · rw [ge64_nonneg_iff isNaN_consts.2.2.2 hn signBit_val1 hs, magBits_val1, hm]
      exact h
  · rintro ⟨hs, -, h⟩
    rw [ge64_nonneg_iff isNaN_consts.2.2.2 (isNaN_of_ge64 h).2 signBit_val1 hs, magBits_val1] at h
    have h2 : ¬ 2 ^ 63 ≤ m.toNat := fun hc => by rw [(signBit_iff m).2 hc] at hs; cases hs
    rw [magBits] at h
    omega

/-! ### No result of an addition to a value that is not -0.0 is -0.0 (R94) -/

theorem negZero_iff (a : F64) : a = 0x8000000000000000#64 ↔ signBit a = true ∧ magBits a = 0 := by
  constructor
  · rintro rfl; decide
  · rintro ⟨h1, h2⟩
    exact eq_of_sign_mag (by rw [h1]; decide) (by rw [h2]; decide)

theorem magBits_nanOf (choice : BitVec 53) : infBits < magBits (nanOf choice) := by
  have h : choice.toNat % 2 ^ 52 < 2 ^ 52 := Nat.mod_lt _ (by decide)
  simp only [nanOf]
  rw [magBits_packBits _ (by simp only [infBits]; split <;> omega)]
  split <;> omega

theorem isNaN_nanOf (choice : BitVec 53) : isNaN (nanOf choice) = true := by
  rw [isNaN_iff]; exact magBits_nanOf choice

end Sys2Proof.Laws
end

