-- ==== Sys2Proof/Laws/PerInstr.lean ====
section
/-! SUPPORT. The statements made command by command (LAWS.json). -/

namespace Sys2Proof.Laws

/-- The word of a command is in the command's row of the opcode map (R64): the bits under the row's mask are its match. -/
def OpcodeMap.Statement (i : Instr) : Prop := (opcodeRow i).hit (encode i) = true

theorem OpcodeMap.nop : OpcodeMap.Statement .nop := by
  unfold OpcodeMap.Statement
  decide

theorem OpcodeMap.start : OpcodeMap.Statement .start := by
  unfold OpcodeMap.Statement
  decide

theorem OpcodeMap.setw (w : Dim) : OpcodeMap.Statement (.setw w) := by
  have := w.isLt
  refine decide_eq_true (?_ : encode _ &&& 0xFFFF0000#32 = _)
  rw [and_upper_mask, encode_toNat]
  simp only
  rw [show (2 ^ 28 + w.toNat) / 2 ^ 16 = 0x1000 by omega]
  rfl

theorem OpcodeMap.seth (h : Dim) : OpcodeMap.Statement (.seth h) := by
  have := h.isLt
  refine decide_eq_true (?_ : encode _ &&& 0xFFFF0000#32 = _)
  rw [and_upper_mask, encode_toNat]
  simp only
  rw [show (2 * 2 ^ 28 + h.toNat) / 2 ^ 16 = 0x2000 by omega]
  rfl

theorem OpcodeMap.pixel (p n : Pix) : OpcodeMap.Statement (.pixel p n) := by
  have := p.isLt
  have := n.isLt
  refine decide_eq_true (?_ : encode _ &&& 0xFFFF0000#32 = _)
  rw [and_upper_mask, encode_toNat]
  simp only
  rw [show (4 * 2 ^ 28 + n.toNat * 2 ^ 8 + p.toNat) / 2 ^ 16 = 0x4000 by omega]
  rfl

end Sys2Proof.Laws
end

