-- ==== Sys2Proof/Tests/Slice0.lean ====
section
/-! SUPPORT. The model's own tests. Expected values come from the spec: the worked words of 30_encoding.md R64 and R70, and
the vectors of 95_test_vectors.md (each test names its row). The second part shows, for every statement with hypotheses, a
concrete state and operands that meet them all; the values at which clauses meet are taken where a statement has several. -/

namespace Sys2Proof.Tests

open Machine

/-! ### Helpers -/

/-- The table configuration T16 of 95_test_vectors.md: (7, 3, 5, 16) and 0.5 in every entry. -/
def t16 : Roms where
  tables :=
    { coefBits := 16, coef := List.replicate 256 ⟨7, 3, 5, 16⟩, strength := List.replicate 256 0x3FE0000000000000#64 }

/-- A configuration SRC: T16 but for the three entries of R105. -/
def src : Roms where
  tables :=
    { coefBits := 16
      coef := (List.replicate 256 ⟨7, 3, 5, 16⟩).set 0 ⟨13, 0, 5, 18⟩
      strength := ((List.replicate 256 0x3FE0000000000000#64).set 200 0x3FD5C28F5C28F5C3#64).set 50 0x3FD5C28F5C28F5C3#64 }

/-- A memory that holds the given words. -/
def memoryOf (words : List (ErrAddr × F64)) : Memory := words.foldl (fun m x => m.writeWord x.1 x.2) []

/-- A state with tables T16, nothing offered and nothing sent, a host that takes beats. -/
def at16 (state : SeqState) (w h r c : Dim) (words : List (ErrAddr × F64)) : State where
  regs := { state := state, width := w, height := h, row := r, col := c, cause := .none, errcmd := 0 }
  roms := t16
  err := memoryOf words
  input := []
  out := []
  errTrace := []
  outReady := true
  heldBeat := none
  frame := match state with
    | .idle => none
    | .run => some ⟨w, h⟩
    | .done => some ⟨w, h⟩
    | .error => none

/-- A state in ERROR. -/
def failed : State :=
  { at16 .idle 0 0 0 0 [] with regs := { Regs.reset with state := .error, cause := .illegalOpcode, errcmd := 0x50000000#32 } }

/-- The state with one event offered. -/
def offer (s : State) (event : Input) : State := { s with input := [event] }

/-- What `view` gives of the next state, none if there is none. -/
def afterwards {α : Type} (view : State → α) : Result → Option α
  | .next t => some (view t)
  | .fault _ => none
  | .refused _ => none

/-- A step that answers a state: shown by evaluating it. -/
theorem next_of_some {r : Result} (h : (afterwards (fun _ => ()) r).isSome = true) : ∃ t, r = .next t := by
  cases r with
  | next t => exact ⟨t, rfl⟩
  | fault r => cases h
  | refused r => cases h

/-- What holds of the state a step answers: shown by evaluating it. -/
theorem next_with {r : Result} {view : State → Bool} (h : afterwards view r = some true) :
    ∃ t, r = .next t ∧ view t = true := by
  cases r with
  | next t => exact ⟨t, rfl, Option.some.inj h⟩
  | fault r => cases h
  | refused r => cases h

/-- 2 by 2 frame of program P3 with its first pixel done. -/
def p3 : State :=
  at16 .run 2 2 0 1 [(0, 0), (1, 0x4045E00000000000#64), (3, 0x403F400000000000#64), (4, 0)]

/-- 1 by 1 frame just started. -/
def tiny : State := at16 .run 1 1 0 0 [(0, 0)]

/-- The same with a host that withholds the acceptance of beats. -/
def withheld : State := { tiny with outReady := false }

/-! ### Decoding, bit by bit (30_encoding.md R62, R63, R64) -/

/-- NOP: OP 0000, RSV28 = 0. -/
theorem test_decode_nop : decode 0b0000_0000000000000000000000000000#32 = .instr .nop := by decide

/-- SETW 0xA5C3: OP 0001, RSV12 = 0, IMM16. -/
theorem test_decode_setw : decode 0b0001_000000000000_1010010111000011#32 = .instr (.setw 0xA5C3#16) := by decide

/-- SETH 0x8001: OP 0010, RSV12 = 0, IMM16. -/
theorem test_decode_seth : decode 0b0010_000000000000_1000000000000001#32 = .instr (.seth 0x8001#16) := by decide

/-- START: OP 0011, RSV28 = 0. -/
theorem test_decode_start : decode 0b0011_0000000000000000000000000000#32 = .instr .start := by decide

/-- PIXEL 50, 200 (R70): OP 0100, RSV12 = 0, NOISE 11001000, LEVEL 00110010. -/
theorem test_decode_pixel : decode 0b0100_000000000000_11001000_00110010#32 = .instr (.pixel 50 200) := by decide

/-- R65: each reserved opcode next to the assigned ones, and each reserved field with one bit set. -/
theorem test_decode_rejects :
    decode 0x50000000#32 = .illegalOpcode ∧ decode 0xF0000000#32 = .illegalOpcode
      ∧ decode 0x08000000#32 = .reservedField ∧ decode 0x10010000#32 = .reservedField
      ∧ decode 0x28000000#32 = .reservedField ∧ decode 0x38000000#32 = .reservedField
      ∧ decode 0x48000000#32 = .reservedField := by decide

theorem test_table_word : decodeTableWord 32 0x40000AC8 = some (.pixel 200 10) ∧ decodeTableWord 32 0x30000001 = none := by
  decide

/-! ### Well-formedness (R68): an ill-formed line for each check, refused; and the last well-formed one -/

theorem test_wellFormed_setw : (AsmLine.setw 65536).wellFormed = false ∧ (AsmLine.setw 65535).wellFormed = true := by decide
theorem test_wellFormed_seth : (AsmLine.seth 65536).wellFormed = false ∧ (AsmLine.seth 65535).wellFormed = true := by decide
theorem test_wellFormed_pixel :
    (AsmLine.pixel 256 0).wellFormed = false ∧ (AsmLine.pixel 0 256).wellFormed = false
      ∧ (AsmLine.pixel 255 255).wellFormed = true := by decide
theorem test_wellFormed_frame :
    (AsmLine.frame 65536 1).wellFormed = false ∧ (AsmLine.frame 1 65536).wellFormed = false
      ∧ (AsmLine.frame 65535 65535).wellFormed = true := by decide
theorem test_wellFormed_word :
    (AsmLine.word (2 ^ 32)).wellFormed = false ∧ (AsmLine.word (2 ^ 32 - 1)).wellFormed = true := by decide

/-- Program P1's last line, and P2's first. -/
theorem test_assembler :
    assembleText "  PIXEL 200, 0x0a ; note".toList = some [0x40000AC8#32]
      ∧ assembleText "FRAME 4, 4".toList = some [0x10000004#32, 0x20000004#32, 0x30000000#32]
      ∧ assembleText "SETW 65536".toList = none := by decide

/-! ### One step of each command -/

/-- C1. -/
theorem test_nop : step ((at16 .idle 0 0 0 0 []).withFetchWord 32 0x00000000) = .next (at16 .idle 0 0 0 0 []) := by rfl

/-- C11. -/
theorem test_setw :
    afterwards (·.regs) (step (State.reset.withFetchWord 32 0x1000FFFF)) =
      some { Regs.reset with width := 65535 } := by decide

/-- C13: SETH in RUN. -/
theorem test_seth_in_run :
    afterwards (·.regs) (step (offer tiny (.command 0x20000004#32))) =
      some { tiny.regs with state := .error, cause := .badState, errcmd := 0x20000004#32 } := by decide

/-- C10: START of a frame with W = 5, H = 0. -/
theorem test_start_degenerate :
    afterwards (fun t => (t.regs.state, t.errTrace)) (exec .start (at16 .idle 5 0 0 0 [])) = some (.done, []) := by decide

/-- P5, second frame: START with W = 1, H = 2 clears words 0 and 2, not word 1. -/
theorem test_start_clears :
    afterwards (fun t => (t.regs.state, t.errTrace, t.err.readWord 1, t.err.readWord 2))
        (exec .start (at16 .done 1 2 1 0 [(0, 0), (1, 0x4045E00000000000#64)])) =
      some (.run, [.write 0 0, .write 2 0], 0x4045E00000000000#64, 0) := by decide +kernel

/-- P3, pixel (0, 1): beat 0xFF; a3 becomes 29.140625, a4 -3.515625; R1, R3, W3, R4, W4; then (1, 0). -/
theorem test_pixel :
    afterwards (fun t => (t.out, t.regs.row, t.regs.col)) (exec (.pixel 200 128) p3) = some ([0xFF], 1, 0)
      ∧ afterwards (fun t => (t.err.readWord 3, t.err.readWord 4)) (exec (.pixel 200 128) p3) =
          some (0x403D240000000000#64, 0xC00C200000000000#64)
      ∧ afterwards (·.errTrace) (exec (.pixel 200 128) p3) =
          some [.read 1, .read 3, .write 3 0x403D240000000000#64, .read 4, .write 4 0xC00C200000000000#64] := by
  decide +kernel

/-- R155 (e): a withheld beat holds the block, a word behind it waits, and taking the beat ends the PIXEL (P1: beat 0xFF,
DONE at (1, 0)). -/
theorem test_withheld_beat :
    afterwards (fun t => (t.out, t.heldBeat, t.regs.state)) (exec (.pixel 200 10) withheld) =
        some ([], some 0xFF, .run)
      ∧ afterwards (fun t => (t.out, t.heldBeat, t.input))
          (Sys2Proof.core.run 3 { withheld with input := [.command 0x40000AC8#32, .command 0, .outReady true] }) =
        some ([0xFF], none, [])
      ∧ afterwards (fun t => (t.regs.state, t.regs.row, t.regs.col))
          (step { withheld with heldBeat := some 0xFF, input := [.command 0, .outReady true] }) =
        some (.done, 1, 0) := by
  decide +kernel

/-- C14: a cell at +inf. -/
theorem test_pixel_nonfinite :
    afterwards (fun t => (t.regs, t.out)) (exec (.pixel 0 0) (at16 .run 1 1 0 0 [(0, 0x7FF0000000000000#64)])) =
      some ({ tiny.regs with state := .error, cause := .nonfinite, errcmd := 0x40000000#32 }, []) := by decide +kernel

/-- C6: RESERVED_FIELD comes before BAD_STATE. -/
theorem test_reserved_before_bad_state :
    afterwards (fun t => (t.regs.cause, t.regs.errcmd)) (step (State.reset.withFetchWord 32 0x40010000)) =
      some (.reservedField, 0x40010000#32) := by decide

/-! ### The numbers -/

/-- T12 and T13 (0.34: 131.4 ties, one unit below does not), T20 and T21 (1.0), as decisions of step 5. -/
theorem test_threshold_ties :
    ge64 0x40606CCCCCCCCCCD#64 (thresholdOf 0x3FD5C28F5C28F5C3#64 10) = true
      ∧ ge64 0x40606CCCCCCCCCCC#64 (thresholdOf 0x3FD5C28F5C28F5C3#64 10) = false
      ∧ thresholdOf 0x3FF0000000000000#64 127 = 0x406FE00000000000#64
      ∧ ge64 0x406FDFFFFFFFFFFF#64 (thresholdOf 0x3FF0000000000000#64 127) = false := by decide +kernel

/-- T15, T16, T19: a tie, noise 255, a negative level. -/
theorem test_threshold_t16 :
    thresh t16 0x4063200000000000#64 50 = 255 ∧ thresh t16 0x4067E00000000000#64 255 = 0
      ∧ thresh t16 0xC08F400000000000#64 254 = 0 := by decide +kernel

/-- D2 and D9. -/
theorem test_terms :
    termsOf ⟨13, 0, 5, 18⟩ 0xC042000000000000#64 = ⟨0xC03A000000000000#64, 0x8000000000000000#64, 0xC024000000000000#64⟩
      ∧ termsOf ⟨7, 3, 5, 16⟩ 0xC026800000000000#64 =
          ⟨0xC013B00000000000#64, 0xC000E00000000000#64, 0xC00C200000000000#64⟩ := by decide +kernel

/-- D5: the three terms, each rounded. -/
theorem test_terms_rounded :
    termsOf ⟨13, 0, 5, 18⟩ 0xC06B6C34DE09E924#64 =
      ⟨0xC063CE262E956144#64, 0x8000000000000000#64, 0xC04E783ABDD21F7C#64⟩ := by decide +kernel

/-- The 3 by 3 boundary table, pixels (1, 1) and (1, 2). -/
theorem test_boundary (t : Terms) :
    additions 3 3 1 1 t = [(6, t.right), (8, t.downLeft), (9, t.down)]
      ∧ additions 3 3 1 2 t = [(9, t.downLeft), (10, t.down)] := by exact ⟨rfl, rfl⟩

/-! ### Hypotheses that are met -/

/-- For OperandsAreTheUnsignedFields. -/
theorem witness_encoding :
    decode 0x10000004#32 = .instr (.setw 4) ∧ decode 0x20000004#32 = .instr (.seth 4)
      ∧ decode 0x40000AC8#32 = .instr (.pixel 200 10) := by decide

theorem witness_FrameExpandsExactly :
    ((65535 : Nat) ≤ 65535 ∧ (65535 : Nat) ≤ 65535) ∧ ((65535 : Nat) < 65536 ∨ (65535 : Nat) < 0)
      ∧ ((65535 : Nat) < 0 ∨ (65535 : Nat) < 65536) := by decide

theorem witness_AssembledOperandsDecodeBack :
    assemble (.setw 65535) = some [0x1000FFFF#32] ∧ assemble (.seth 65535) = some [0x2000FFFF#32]
      ∧ assemble (.pixel 255 254) = some [0x4000FEFF#32]
      ∧ assemble (.word 0xFFFFFFFF) = some [0xFFFFFFFF#32] ∧ assemble (.word (2 ^ 32)) = none
      ∧ assemble (.setw 65536) = none ∧ assemble (.seth 65536) = none
      ∧ assemble (.pixel 256 0) = none ∧ assemble (.pixel 0 256) = none := by decide

theorem witness_StepRunsTheDecodedCommand :
    tiny.heldBeat = none ∧ (offer tiny (.command 0x40000AC8#32)).input = .command 0x40000AC8#32 :: []
      ∧ decode 0x40000AC8#32 = .instr (.pixel 200 10) := by decide

theorem witness_IllegalWordsTakeTheirFault :
    tiny.heldBeat = none ∧ (offer tiny (.command 0x50000000#32)).input = .command 0x50000000#32 :: []
      ∧ (offer tiny (.command 0x30000001#32)).input = .command 0x30000001#32 :: []
      ∧ tiny.regs.state ≠ .error
      ∧ decode 0x50000000#32 = .illegalOpcode ∧ decode 0x30000001#32 = .reservedField := by decide

theorem witness_ErrorStateIgnoresEveryWord :
    failed.heldBeat = none ∧ (offer failed (.command 0x30000000#32)).input = .command 0x30000000#32 :: [] ∧ failed.regs.state = .error := by decide

theorem witness_WaitingKeepsAllState : tiny.input = [] := by decide

theorem witness_ResetSetsTheRegisters : (offer failed .reset).input = .reset :: [] := by decide

theorem witness_ResetDuringACommandIsWholeWordOrNothing :
    p3.heldBeat = none ∧ (offer p3 (.resetDuring 0x400080C8#32 [true, true, true, false, false] true)).input =
      .resetDuring 0x400080C8#32 [true, true, true, false, false] true :: [] := by decide

theorem witness_ResetDuringACommandAdmitsEverySubset :
    p3.heldBeat = none ∧ ∃ after, step (offer p3 (.command 0x400080C8#32)) = .next after :=
  ⟨rfl, next_of_some (by decide +kernel)⟩

/-- At the buffer's last word (3) and just past it (4), in a 1 by 1 frame; and outside RUN. -/
theorem witness_HostAccessOnlyOutsideTheFrame :
    (tiny.regs.state = .run ∧ (3 : ErrAddr).toNat < (tiny.regs.height.toNat + 1) * (tiny.regs.width.toNat + 1))
      ∧ (tiny.regs.height.toNat + 1) * (tiny.regs.width.toNat + 1) ≤ (4 : ErrAddr).toNat
      ∧ failed.regs.state ≠ .run
      ∧ (offer tiny (.hostRead 3)).input = .hostRead 3 :: []
      ∧ (offer tiny (.hostWrite 4 0)).input = .hostWrite 4 0 :: [] := by decide

theorem witness_BadStateFault :
    tiny.regs.state = .run ∧ (at16 .idle 1 1 0 0 []).regs.state = .idle ∧ (at16 .done 1 1 1 0 []).regs.state = .done := by
  decide

theorem witness_NonfiniteFault :
    let s := at16 .run 1 1 0 0 [(0, 0x7FF0000000000000#64)]
    s.regs.state = .run ∧ isFinite (add64 (f64 (0 : Pix).toNat) (s.err.readWord (currentCell s))) = false := by
  decide +kernel

theorem witness_FaultsArePrecise :
    tiny.regs.state ≠ .error
      ∧ execWord 0x10000003#32 tiny = .next (takeFault .badState 0x10000003#32 tiny)
      ∧ (takeFault .badState 0x10000003#32 tiny).regs.state = .error := ⟨by decide, rfl, rfl⟩

/-- A word for each clause: in ERROR; an illegal opcode; a reserved field; SETW in RUN and PIXEL in IDLE; PIXEL in RUN on a
cell at +inf. -/
theorem witness_FaultPriority :
    execWord 0x30000000#32 failed = .next failed
      ∧ afterwards (·.regs.state) (execWord 0x50000000#32 tiny) = some .error
      ∧ afterwards (·.regs.state) (execWord 0x40010000#32 tiny) = some .error
      ∧ afterwards (·.regs.state) (execWord 0x10000003#32 tiny) = some .error
      ∧ afterwards (·.regs.state) (execWord 0x40000101#32 (at16 .idle 0 0 0 0 [])) = some .error
      ∧ afterwards (·.regs.state) (execWord 0x40000000#32 (at16 .run 1 1 0 0 [(0, 0x7FF0000000000000#64)])) = some .error := by
  exact ⟨rfl, by decide, by decide, by decide, by decide, by decide +kernel⟩

theorem witness_OnlyResetLeavesError :
    failed.HoldInv ∧ failed.regs.state = .error ∧ step (offer failed .reset) = .next (resetBlock failed) := by
  exact ⟨fun b h => (by cases h), rfl, rfl⟩

/-- For SetupWritesOneRegister, StartClearsTheImageCells, DegenerateFrame (W = 0 and H = 0) and PortAccessesAreBounded. -/
theorem witness_setup_states :
    (at16 .idle 0 0 0 0 []).regs.state = .idle ∧ (at16 .done 1 1 1 0 []).regs.state = .done
      ∧ (at16 .idle 0 9 0 0 []).regs.width = 0 ∧ (at16 .done 9 0 0 0 []).regs.height = 0 := by decide

theorem witness_PixelCompletes :
    p3.regs.state = .run ∧ p3.outReady = true
      ∧ isFinite (add64 (f64 (200 : Pix).toNat) (p3.err.readWord (currentCell p3))) = true := by
  decide +kernel

theorem witness_WithheldBeatHoldsTheBlock :
    withheld.regs.state = .run ∧ withheld.outReady = false ∧ withheld.heldBeat = none
      ∧ isFinite (add64 (f64 (200 : Pix).toNat) (withheld.err.readWord (currentCell withheld))) = true
      ∧ (∀ e ∈ [Input.command 0, .resetDuring 0x30000000#32 [] false], e.isWord = true) := by
  decide +kernel

/-- Inside a row, at the end of a row, and at the last pixel. -/
theorem witness_PositionAdvancesInRasterOrder :
    (∀ s ∈ [at16 .run 2 2 0 0 [(0, 0), (1, 0), (3, 0), (4, 0)], p3, tiny],
      s.regs.state = .run ∧ s.outReady = true ∧ s.regs.row < s.regs.height ∧ s.regs.col < s.regs.width
        ∧ (afterwards (·.regs.state) (exec (.pixel 200 128) s) = some .run
          ∨ afterwards (·.regs.state) (exec (.pixel 200 128) s) = some .done)) := by decide +kernel

theorem witness_OneBeatPerPixel :
    afterwards (·.out) (exec (.pixel 200 128) tiny) = some [0xFF] ∧ exec .nop tiny = .next tiny := ⟨by decide +kernel, rfl⟩

theorem witness_OnlyImageCellsAreAccessed : p3.regs.Inv ∧ ∃ t, exec (.pixel 200 128) p3 = .next t := by
  exact ⟨⟨by decide, by decide, by decide, by decide, by decide⟩, next_of_some (by decide +kernel)⟩

/-- Two states that differ in the padding word 2 only. -/
theorem witness_OnlyImageCellsMatter :
    let u := { p3 with err := p3.err.writeWord 2 0x4045E00000000000#64 }
    p3.regs.Inv ∧ u = { p3 with err := u.err }
      ∧ (∀ r ∈ List.range 2, ∀ c ∈ List.range 2, p3.err.readWord (cellAddr 2 r c) = u.err.readWord (cellAddr 2 r c))
      ∧ (∃ t, exec (.pixel 200 128) p3 = .next t) ∧ ∃ v, exec (.pixel 200 128) u = .next v := by
  exact ⟨⟨by decide, by decide, by decide, by decide, by decide⟩, rfl, by decide +kernel,
    next_of_some (by decide +kernel), next_of_some (by decide +kernel)⟩

/-- A word of NOP's opcode with reserved bits set. -/
theorem witness_NopChangesNothing : (0x00000001#32).toNat / 2 ^ 28 = 0 ∧ 0x00000001#32 ≠ 0x00000000#32 := by decide

/-- First column, last column, last row. -/
theorem witness_DroppedTermsIssueNoAccess :
    ∀ s ∈ [at16 .run 2 2 0 0 [(0, 0), (1, 0), (3, 0), (4, 0)], p3, at16 .run 2 2 1 0 [(3, 0), (4, 0)]],
      s.regs.state = .run ∧ afterwards (·.regs.state) (exec (.pixel 50 3) s) = some .run := by decide +kernel

/-- For DimensionsAreWrittenOnlyByTheirCommand and TablesNeverChange. -/
theorem witness_a_step : ∃ t, step (offer tiny (.command 0x40000AC8#32)) = .next t :=
  next_of_some (by decide +kernel)

theorem witness_NoiseResidueByCases :
    (127 : Pix).toNat ≤ 127 ∧ 128 ≤ (128 : Pix).toNat ∧ (254 : Pix).toNat ≤ 254 ∧ 126 ≤ 126 ∧ noiseResidue 254 = 126 := by
  decide

/-- -0.5, 0.0, the value just below 255.0, and 255.0. -/
theorem witness_IndexIsTheFlooredClampedLevel :
    isFinite 0xBFE0000000000000#64 = true ∧ ge64 0xBFE0000000000000#64 0x0000000000000000#64 = false
      ∧ ge64 0x0000000000000000#64 0x0000000000000000#64 = true
      ∧ ge64 0x406FDFFFFFFFFFFF#64 0x406FE00000000000#64 = false
      ∧ isFinite 0x406FE00000000000#64 = true ∧ ge64 0x406FE00000000000#64 0x406FE00000000000#64 = true := by
  decide +kernel

theorem witness_ThresholdStaysInRange :
    legalStrength 0x0000000000000000#64 = true ∧ legalStrength 0x3FF0000000000000#64 = true := by decide

/-- For ZeroResidueIgnoresTheTable, ClampDoesNotChangeTheDecision, TableIndependentDecisions and ZeroOutputKeepsTheResidual. -/
theorem witness_finite_levels :
    isFinite (f64 128) = true ∧ ((128 : Pix) = 0 ∨ (128 : Pix) = 128) ∧ isFinite 0xC08F400000000000#64 = true ∧ ge64 0x405FFFFFFFFFFFFF#64 (f64 128) = false
      ∧ ge64 (f64 255) (f64 255) = true := by decide +kernel

theorem witness_SourceThresholdExamples : src.SourceEntries := ⟨rfl, rfl, rfl⟩

/-- A 2 by 2 frame with tables SRC. -/
theorem witness_ConservationIsNotExactInBinary64 :
    let s := { at16 .run 2 2 0 0 [(0, 0), (1, 0), (3, 0), (4, 0)] with roms := src }
    s.roms.SourceEntries ∧ s.regs.width = 2 ∧ s.regs.height = 2 := ⟨⟨rfl, rfl, rfl⟩, rfl, rfl⟩

/-- For ZeroResidualGivesZeroTerms and TermsTakeTheSignOfTheResidual. -/
theorem witness_terms :
    CoefRow.legal 16 ⟨13, 0, 5, 18⟩ = true ∧ isFinite 0xC042000000000000#64 = true := by decide

/-- A finite value and an infinity; also for SumsAreNeverNegativeZero. -/
theorem witness_ZeroTermLeavesTheCell :
    isNaN 0x4045E00000000000#64 = false ∧ isNaN 0x7FF0000000000000#64 = false
      ∧ (0x7FF0000000000000#64 : F64) ≠ negZero ∧ (0x4045E00000000000#64 : F64) ≠ negZero ∧ isZero negZero = true
      ∧ isZero posZero = true := by decide

theorem witness_CellAddressesAreDistinct :
    (65535 : Nat) ≤ 65535 ∧ cellAddr 65535 65535 65535 = 0xFFFFFFFF#32 := by decide +kernel

theorem witness_WordsAreLittleEndian :
    ∃ a : ErrAddr, (0 : Nat) < 8 ∧ 8 * a.toNat + 7 = 8 * a.toNat + 7 ∧ 7 < 8 * a.toNat ∧ 8 * a.toNat + 8 ≤ 16 := by
  exact ⟨1, by decide⟩

theorem p3_inv : p3.Inv where
  regs := ⟨by decide, by decide, by decide, by decide, by decide⟩
  memory := by decide +kernel
  cells := by
    have all : ∀ r ∈ List.range 2, ∀ c ∈ List.range 2,
        p3.err.wordWritten (cellAddr 2 r c) = true ∧ p3.err.readWord (cellAddr 2 r c) ≠ negZero := by decide +kernel
    exact fun _ r c hr hc => all r (List.mem_range.2 hr) c (List.mem_range.2 hc)
  beats := by decide
  frameSize := ⟨by decide, by decide, fun h => absurd h (by decide)⟩
  hold := fun b h => by cases h

theorem witness_EveryStepKeepsTheInvariant :
    p3.Inv ∧ ∃ t, step (offer p3 (.command 0x400080C8#32)) = .next t := 
  ⟨p3_inv, next_of_some (by decide +kernel)⟩

theorem witness_FrameEndIsKeptButBySetup :
    let s := at16 .done 1 1 1 0 []
    s.Inv ∧ s.frame = some ⟨s.regs.width, s.regs.height⟩ ∧ s.regs.FrameEnd ∧ step s = .next s := by
  refine ⟨⟨⟨?_, ?_, ?_, ?_, ?_⟩, ?_, ?_, ?_, ⟨?_, ?_, ?_⟩, ?_⟩, rfl, ?_, rfl⟩
  · decide
  · decide
  · decide
  · decide
  · decide
  · decide
  · exact fun h => absurd h (by decide)
  · decide
  · decide
  · decide
  · exact fun _ => ⟨⟨1, 1⟩, rfl, Or.inl (by decide)⟩
  · exact fun b h => by cases h
  · exact fun _ => Or.inl (by decide)

/-- P1 with T16: START and one PIXEL, and NOP left over. -/
theorem witness_FrameFunction :
    let rows := [[⟨200, 10⟩]]
    let s := { at16 .idle 1 1 0 0 [] with input := frameInput rows ++ [.command 0] }
    ∃ t, (s.regs.state = .idle ∨ s.regs.state = .done) ∧ 1 ≤ s.regs.width.toNat ∧ 1 ≤ s.regs.height.toNat
      ∧ rows.length = s.regs.height.toNat ∧ (∀ row ∈ rows, row.length = s.regs.width.toNat)
      ∧ s.outReady = true ∧ s.heldBeat = none
      ∧ Sys2Proof.core.run (frameInput rows).length s = .next t ∧ t.FaultFree := by
  intro rows s
  obtain ⟨t, run, ok⟩ := next_with (r := Sys2Proof.core.run (frameInput rows).length s)
    (view := fun t => decide (t.regs.state ≠ .error)) (by decide +kernel)
  exact ⟨t, by decide, by decide, by decide, by decide, by decide, rfl, rfl, run, (by simpa using ok : t.regs.state ≠ .error)⟩

/-- P1's own result: one beat 0xFF. -/
theorem test_frame_function : frameBeats t16 [[⟨200, 10⟩]] = [0xFF] := by decide +kernel

theorem witness_ZeroImageGivesZeroBeats : ∀ row ∈ [[PixelIn.mk 0 82, ⟨0, 242⟩]], ∀ q ∈ row, q.p = 0 := by decide

theorem witness_ZeroPixelKeepsZeroCells :
    let s := at16 .run 2 1 0 0 [(0, 0), (1, 0)]
    s.regs.state = .run ∧ s.outReady = true ∧ s.regs.row < s.regs.height ∧ s.regs.col < s.regs.width
      ∧ (∀ r ∈ List.range 1, ∀ c ∈ List.range 2, s.err.readWord (cellAddr s.regs.width.toNat r c) = posZero) := by
  decide +kernel

end Sys2Proof.Tests
end

section
/-! SUPPORT. What one step can do, said once: a command word by its effect on the state, the other events of the outside
by theirs. The invariant and the facts about single registers are derived from these cases. -/

namespace Sys2Proof.StateProofs

open Machine Laws

/-! ### Which command a word is -/

/-- A word that decodes to a command is that command's one word (R62, R64). -/
theorem eq_encode_of_decode {cmd : Word} {i : Instr} (h : decode cmd = .instr i) : cmd = encode i := by
  have hlt := cmd.isLt
  have himm := imm16Field_toNat cmd
  have hlevel := levelField_toNat cmd
  have hnoise := noiseField_toNat cmd
  apply BitVec.eq_of_toNat_eq
  rw [encode_toNat]
  rw [decode_eq] at h
  split at h
  case h_6 => cases h
  all_goals
    split at h <;> cases h
    dsimp only
    omega

/-! ### Command words -/

/-- What an accepted word can leave, with the guards under which it does. -/
inductive WordEffect (cmd : Word) (s : State) : State → Prop
  /-- NOP, and every word in ERROR (R111, R136) -/
  | unchanged : WordEffect cmd s s
  /-- a fault that is found before any access (R131) -/
  | fault (cause : Cause) (hc : cause ≠ .none) (hs : s.regs.state ≠ .error) :
      WordEffect cmd s (takeFault cause cmd s)
  /-- a PIXEL that reads a cell which makes its level infinite or a NaN (R116) -/
  | nonfinite (p n : Pix) (hi : cmd = encode (.pixel p n)) (hs : s.regs.state = .run)
      (hx : isFinite (levelNow p s) = false) :
      WordEffect cmd s (takeFault .nonfinite cmd (errRead (currentCell s) s).2)
  /-- SETW outside a frame (R112) -/
  | setw (w : Dim) (hi : cmd = encode (.setw w)) (hs : s.regs.state = .idle ∨ s.regs.state = .done) :
      WordEffect cmd s { s with regs := { s.regs with width := w } }
  /-- SETH outside a frame (R113) -/
  | seth (h : Dim) (hi : cmd = encode (.seth h)) (hs : s.regs.state = .idle ∨ s.regs.state = .done) :
      WordEffect cmd s { s with regs := { s.regs with height := h } }
  /-- START outside a frame (R114) -/
  | start (hi : cmd = encode .start) (hs : s.regs.state = .idle ∨ s.regs.state = .done) :
      WordEffect cmd s (startState s)
  /-- a PIXEL whose beat the host takes (R116) -/
  | pixel (p n : Pix) (hi : cmd = encode (.pixel p n)) (hs : s.regs.state = .run)
      (hx : isFinite (levelNow p s) = true) (hr : s.outReady = true) : WordEffect cmd s (pixelState p n s)
  /-- a PIXEL whose beat the host withholds (R155 (e)) -/
  | held (p n : Pix) (hi : cmd = encode (.pixel p n)) (hs : s.regs.state = .run)
      (hx : isFinite (levelNow p s) = true) (hr : s.outReady = false) : WordEffect cmd s (heldState p n s)

/-- A word that is no command raises its cause, but in ERROR (R65, R110). -/
theorem WordEffect.of_unlessError_raise {cause : Cause} {cmd : Word} {s t : State} (hc : cause ≠ .none)
    (h : unlessError s (raise cause cmd s) = .next t) : WordEffect cmd s t := by
  rcases unlessError_cases s (raise cause cmd s) with ⟨_, e⟩ | ⟨hs, e⟩ <;> rw [e] at h <;> cases h
  · exact .unchanged
  · exact .fault cause hc hs

/-- A command has one of the effects. -/
theorem WordEffect.of_exec {i : Instr} {s t : State} (h : exec i s = .next t) : WordEffect (encode i) s t := by
  cases i with
  | nop =>
    cases (execNop_eq s).symm.trans h
    exact .unchanged
  | setw w =>
    rcases execSetw_cases w s with ⟨_, e⟩ | ⟨hs, e⟩ | ⟨hs, e⟩ <;> cases e.symm.trans h
    · exact .unchanged
    · exact .fault .badState (by decide) (by simp [hs])
    · exact .setw w rfl hs
  | seth v =>
    rcases execSeth_cases v s with ⟨_, e⟩ | ⟨hs, e⟩ | ⟨hs, e⟩ <;> cases e.symm.trans h
    · exact .unchanged
    · exact .fault .badState (by decide) (by simp [hs])
    · exact .seth v rfl hs
  | start =>
    rcases execStart_cases s with ⟨_, e⟩ | ⟨hs, e⟩ | ⟨hs, e⟩ <;> cases e.symm.trans h
    · exact .unchanged
    · exact .fault .badState (by decide) (by simp [hs])
    · exact .start rfl hs
  | pixel p n =>
    rcases execPixel_cases p n s with ⟨_, e⟩ | ⟨hs, e⟩ | ⟨hs, hx, e⟩ | ⟨hs, hx, hr, e⟩ | ⟨hs, hx, hr, e⟩ <;>
      cases e.symm.trans h
    · exact .unchanged
    · exact .fault .badState (by decide) (by rcases hs with hs | hs <;> simp [hs])
    · exact .nonfinite p n rfl hs hx
    · exact .pixel p n rfl hs hx hr
    · exact .held p n rfl hs hx hr

/-- An accepted word has one of the effects (R110). -/
theorem WordEffect.of_execWord {cmd : Word} {s t : State} (h : execWord cmd s = .next t) : WordEffect cmd s t := by
  unfold execWord at h
  split at h
  next i hd =>
    rw [eq_encode_of_decode hd]
    exact .of_exec h
  next => exact .of_unlessError_raise (by decide) h
  next => exact .of_unlessError_raise (by decide) h

/-! ### The other events -/

/-- A word abandoned by reset (R150): it would have led to some state, and `abandon` says what remains of it. -/
theorem execWordAbandoned_next {cmd : Word} {kept : List Bool} {b : Bool} {s t : State}
    (h : execWordAbandoned cmd kept b s = .next t) : ∃ u, execWord cmd s = .next u ∧ t = abandon s u kept b := by
  unfold execWordAbandoned at h
  split at h <;> cases h
  next u hu => exact ⟨u, hu, rfl⟩

theorem hostRead_next {a : ErrAddr} {s t : State} (h : hostRead a s = .next t) : t = s := by
  unfold hostRead at h
  split at h <;> cases h
  rfl

/-- A host write that has a meaning lies outside the buffer of a frame in progress (R52, R53). -/
theorem hostWrite_next {a : ErrAddr} {v : F64} {s t : State} (h : hostWrite a v s = .next t) :
    owned s a = false ∧ t = { s with err := s.err.writeWord a v } := by
  unfold hostWrite at h
  split at h <;> cases h
  next ho => exact ⟨Bool.eq_false_of_not_eq_true ho, rfl⟩

/-! ### One step -/

/-- A step waits, or takes the next event. -/
theorem step_next {s t : State} (h : step s = .next t) :
    (s.nextEvent = none ∧ t = s)
      ∨ ∃ event rest, s.nextEvent = some (event, rest) ∧ takeInput event { s with input := rest } = .next t := by
  unfold step at h
  split at h
  next hn => cases h; exact .inl ⟨hn, rfl⟩
  next event rest hn => exact .inr ⟨event, rest, hn, h⟩

/-- A word is taken only when no beat is held (R61, R155 (e)). -/
theorem heldBeat_of_nextEvent_word {s : State} {event : Input} {rest : List Input}
    (h : s.nextEvent = some (event, rest)) (hw : event.isWord = true) : s.heldBeat = none := by
  cases hb : s.heldBeat with
  | none => rfl
  | some b =>
    rw [State.nextEvent, hb] at h
    exact absurd (takeable_holding h) (by simp [hw])

/-- With no beat held the next event is the oldest. -/
theorem input_of_nextEvent {s : State} {event : Input} {rest : List Input} (hb : s.heldBeat = none)
    (h : s.nextEvent = some (event, rest)) : s.input = event :: rest := by
  rw [State.nextEvent, hb] at h
  cases hi : s.input with
  | nil => rw [hi] at h; cases h
  | cons e l => rw [hi] at h; cases h; rfl

end Sys2Proof.StateProofs
end

section
/-! SUPPORT. The facts about additions, memory and the scan position that the invariant needs. -/

namespace Sys2Proof.StateProofs

open Machine Laws

/-! ### -0.0 never comes into a cell (R94) -/

theorem ne_negZero_of_magBits {a : F64} (h : magBits a ≠ 0) : a ≠ negZero :=
  fun e => h ((negZero_iff a).1 e).2

/-- A rounded sum is -0.0 only when both addends have the sign and the exact sum is 0: a sum that is not 0 never rounds
to 0, since its magnitude is at least one unit. -/
theorem roundSum_ne_negZero {exact : Int} {bothNegative : Bool} (h : exact = 0 → bothNegative = false) :
    roundSum exact bothNegative ≠ negZero := by
  unfold roundSum
  split
  next h0 =>
    rw [h h0]
    decide
  next h0 =>
    apply ne_negZero_of_magBits
    rw [magBits_packBits _ (roundBits_lt _ _)]
    exact roundBits_ne_zero (by omega)

/-- Adding to a value that is not -0.0 never gives -0.0. -/
theorem add64_ne_negZero {v : F64} (t : F64) (hv : v ≠ negZero) : add64 v t ≠ negZero := by
  unfold add64
  split
  next => exact ne_negZero_of_magBits (by have := magBits_nanOf (Config.nanChoice .add v t); omega)
  next =>
    split
    next => exact hv
    next =>
      split
      next ht => exact ne_negZero_of_magBits (by rw [(isInf_iff t).1 ht]; decide)
      next =>
        refine roundSum_ne_negZero fun hsum => ?_
        by_contra hneg
        rw [Bool.not_eq_false, Bool.and_eq_true] at hneg
        obtain ⟨hsv, hst⟩ := hneg
        rw [valueUnits_neg hsv, valueUnits_neg hst] at hsum
        have hmag : magBits v = 0 := magOf_eq_zero.1 (by omega)
        exact hv ((negZero_iff v).2 ⟨hsv, hmag⟩)

/-- ErrAdds leave no -0.0 where there was none. -/
theorem readWord_addMemory_ne_negZero (adds : List (ErrAddr × F64)) {m : Memory} {a : ErrAddr}
    (h : m.readWord a ≠ negZero) : (addMemory adds m).readWord a ≠ negZero := by
  induction adds generalizing m with
  | nil => exact h
  | cons x rest ih =>
    refine ih ?_
    rw [readWord_writeWord]
    split
    next e => exact add64_ne_negZero x.2 (e ▸ h)
    next => exact h

/-! ### The buffer of a frame in progress (R41, R52) -/

/-- A word that the block does not own is no image cell of a running frame. -/
theorem ne_cellAddr_of_not_owned {s : State} {a : ErrAddr} (ho : owned s a = false) (hs : s.regs.state = .run)
    {r c : Nat} (hr : r < s.regs.height.toNat) (hc : c < s.regs.width.toNat) :
    cellAddr s.regs.width.toNat r c ≠ a := by
  rintro rfl
  have hw := s.regs.width.isLt
  have hh := s.regs.height.isLt
  have hrow : (r + 1) * (s.regs.width.toNat + 1) ≤ (s.regs.height.toNat + 1) * (s.regs.width.toNat + 1) :=
    Nat.mul_le_mul_right _ (by omega)
  rw [Nat.add_mul] at hrow
  simp only [owned, hs, decide_true, Bool.true_and, decide_eq_false_iff_not,
    cellAddr_toNat hw (show r < 2 ^ 16 by omega) (show c < 2 ^ 16 by omega)] at ho
  omega

/-! ### The scan position (R117) -/

/-- From a position inside the frame the advance stays inside it, or ends the frame at (H, 0). -/
theorem advanceRegs_cases {r : Regs} (hs : r.state = .run) (hrow : r.row < r.height) (hcol : r.col < r.width) :
    ((advanceRegs r).state = .run ∧ (advanceRegs r).row < r.height ∧ (advanceRegs r).col < r.width)
      ∨ ((advanceRegs r).state = .done ∧ (advanceRegs r).row = r.height ∧ (advanceRegs r).col = 0) := by
  unfold advanceRegs
  split
  next h => exact .inl ⟨hs, hrow, by bv_omega⟩
  next h =>
    by_cases hlast : r.row.toNat + 1 = r.height.toNat
    · exact .inr ⟨by simp [hlast], by simp [hlast], rfl⟩
    · exact .inl ⟨by simp [hlast, hs], by bv_omega, by bv_omega⟩

/-! ### The beats (R46) -/

theorem beatOf_cases (out : Nat) : beatOf out = 0x00 ∨ beatOf out = 0xFF := by
  unfold beatOf
  split
  · exact .inr rfl
  · exact .inl rfl

end Sys2Proof.StateProofs
end

section
/-! SUPPORT. The invariant of the block (`State.Inv`): it holds after every reset, and every event of the outside keeps
it. -/

namespace Sys2Proof.StateProofs

open Machine Laws

/-! ### Reset -/

/-- After a reset nothing of R33 depends on what was before: only the form of the memory and the beats already sent do. -/
theorem inv_of_reset {s : State} (hregs : s.regs = Regs.reset) (hheld : s.heldBeat = none) (hframe : s.frame = none)
    (hmem : s.err.wf = true) (hbeats : ∀ b ∈ s.out, b = 0x00 ∨ b = 0xFF) : s.Inv where
  regs := by rw [hregs]; constructor <;> simp [Regs.reset]
  memory := hmem
  cells := fun hs => by rw [hregs] at hs; cases hs
  beats := hbeats
  frameSize := by
    refine ⟨fun _ => hframe, fun hs => ?_, fun hs => ?_⟩ <;> rw [hregs] at hs <;> cases hs
  hold := fun b hb => by rw [hheld] at hb; cases hb

theorem inv_resetBlock {s : State} (h : s.Inv) : (resetBlock s).Inv :=
  inv_of_reset rfl rfl rfl h.memory h.beats

/-- An abandoned command leaves whole words and at most the beat it would have sent (R150). -/
theorem inv_abandon {s u : State} (kept : List Bool) (b : Bool) (hs : s.Inv) (hu : u.Inv) :
    (abandon s u kept b).Inv := by
  refine inv_of_reset rfl rfl rfl (wf_applyWrites _ hs.memory) fun x hx => ?_
  rw [abandon_out] at hx
  split at hx
  · exact hu.beats x hx
  · exact hs.beats x hx

/-! ### What the invariant does not look at -/

/-- Of a state the invariant sees the registers, ERR, the beats sent, the size of the frame and the held beat. -/
theorem inv_of_same {s t : State} (h : s.Inv) (hregs : t.regs = s.regs) (herr : t.err = s.err) (hout : t.out = s.out)
    (hframe : t.frame = s.frame) (hold : t.HoldInv) : t.Inv := by
  cases t
  cases hregs; cases herr; cases hout; cases hframe
  exact ⟨h.regs, h.memory, h.cells, h.beats, ⟨h.frameSize.idle, h.frameSize.run, h.frameSize.done⟩, hold⟩

/-- The host may begin to take beats only when none is held, and may cease at any time. -/
theorem inv_outReady {s : State} {ready : Bool} (h : s.Inv) (hr : s.heldBeat = none ∨ ready = false) :
    State.Inv { s with outReady := ready } := by
  refine inv_of_same h rfl rfl rfl rfl fun b hb => ?_
  obtain ⟨hrun, -, hval⟩ := h.hold b hb
  rcases hr with hn | hf
  · cases hn.symm.trans hb
  · exact ⟨hrun, hf, hval⟩

/-! ### Command words -/

theorem inv_takeFault {s : State} {cause : Cause} (cmd : Word) (h : s.Inv) (hb : s.heldBeat = none)
    (hc : cause ≠ .none) : (takeFault cause cmd s).Inv where
  regs := by constructor <;> simp [hc]
  memory := h.memory
  cells := fun hs => by cases hs
  beats := h.beats
  frameSize := ⟨fun hs => (by cases hs), fun hs => (by cases hs), fun hs => (by cases hs)⟩
  hold := fun b hheld => by cases hb.symm.trans hheld

/-- Outside a frame the size may change: no part of the invariant speaks of it there (log entry 9). -/
theorem inv_resize {s : State} (w v : Dim) (h : s.Inv) (hs : s.regs.state = .idle ∨ s.regs.state = .done) :
    State.Inv { s with regs := { s.regs with width := w, height := v } } := by
  have hrun : s.regs.state ≠ .run := by rcases hs with e | e <;> simp [e]
  exact {
    regs := ⟨fun e => absurd e hrun, h.regs.done, h.regs.idle, h.regs.noFault, h.regs.fault⟩
    memory := h.memory
    cells := fun e => absurd e hrun
    beats := h.beats
    frameSize := ⟨h.frameSize.idle, fun e => absurd e hrun, h.frameSize.done⟩
    hold := fun b hb => absurd (h.hold b hb).1 hrun }

/-- START leaves a frame of no cells in DONE, every other in RUN (R114, R115). -/
theorem startRegs_state_cases (r : Regs) :
    ((startRegs r).state = .done ∧ r.width.toNat * r.height.toNat = 0)
      ∨ ((startRegs r).state = .run ∧ 0 < r.width ∧ 0 < r.height) := by
  unfold startRegs
  split
  next hz => exact .inl ⟨rfl, by rcases hz with e | e <;> simp [e]⟩
  next hz =>
    rw [not_or] at hz
    exact .inr ⟨rfl, (BitVec.pos_iff_ne_zero _).2 hz.1, (BitVec.pos_iff_ne_zero _).2 hz.2⟩

theorem regsInv_startRegs {r : Regs} (h : r.Inv) (hs : r.state ≠ .error) : (startRegs r).Inv := by
  obtain ⟨hcause, herrcmd⟩ := h.noFault hs
  rcases startRegs_state_cases r with ⟨e, _⟩ | ⟨e, hw, hh⟩
  · constructor <;> simp [e, hcause, herrcmd]
  · constructor
    case run => exact fun _ => ⟨by rw [startRegs_width]; bv_omega, by rw [startRegs_height]; bv_omega, hh, hw⟩
    all_goals simp [e, hcause, herrcmd]

theorem inv_startState {s : State} (h : s.Inv) (hs : s.regs.state = .idle ∨ s.regs.state = .done) :
    (startState s).Inv where
  regs := regsInv_startRegs h.regs (by rcases hs with e | e <;> simp [e])
  memory := wf_foldl_writeWord _ _ h.memory
  cells := fun _ r c hr hc => by
    have hmem : cellAddr s.regs.width.toNat r c ∈ imageCells s.regs.width.toNat s.regs.height.toNat :=
      mem_imageCells.2 ⟨r, c, hr, hc, rfl⟩
    simp only [startState, startRegs_width, wordWritten_foldl_writeWord, readWord_foldl_writeWord, hmem, decide_true,
      Bool.true_or, if_true, true_and]
    decide
  beats := h.beats
  frameSize := by
    rcases startRegs_state_cases s.regs with ⟨e, hz⟩ | ⟨e, _, _⟩
    · exact ⟨fun e' => (by cases e.symm.trans e'), fun _ => rfl, fun _ => ⟨_, rfl, .inr ⟨rfl, rfl, hz⟩⟩⟩
    · exact ⟨fun e' => (by cases e.symm.trans e'), fun _ => rfl, fun e' => (by cases e.symm.trans e')⟩
  hold := fun b hb => by
    have hrun := (h.hold b hb).1
    rcases hs with e | e <;> cases e.symm.trans hrun

/-! ### PIXEL: its additions, and the advance when its beat is taken -/

theorem inv_heldState {s : State} (p n : Pix) (h : s.Inv) (hs : s.regs.state = .run) (hr : s.outReady = false) :
    (heldState p n s).Inv where
  regs := h.regs
  memory := wf_addMemory _ h.memory
  cells := fun _ r c hrow hcol => by
    obtain ⟨hwritten, hne⟩ := h.cells hs r c hrow hcol
    exact ⟨wordWritten_addMemory _ _ _ hwritten, readWord_addMemory_ne_negZero _ hne⟩
  beats := h.beats
  frameSize := ⟨h.frameSize.idle, h.frameSize.run, h.frameSize.done⟩
  hold := fun b hb => by
    cases hb
    exact ⟨hs, hr, beatOf_cases _⟩

theorem regsInv_advanceRegs {r : Regs} (h : r.Inv) (hs : r.state = .run) : (advanceRegs r).Inv := by
  obtain ⟨hw, hh, hrow, hcol⟩ := h.run hs
  obtain ⟨hcause, herrcmd⟩ := h.noFault (by simp [hs])
  rcases advanceRegs_cases hs hrow hcol with ⟨e, hrow', hcol'⟩ | ⟨e, _, hcol'⟩
  · constructor <;> simp [e, hw, hh, hrow', hcol', hcause, herrcmd]
  · constructor <;> simp [e, hcol', hcause, herrcmd]

/-- The end of a PIXEL (R116): its beat is sent and the position advances. -/
theorem inv_finishPixel {s : State} {b : Beat} (h : s.Inv) (hs : s.regs.state = .run) (hb : b = 0x00 ∨ b = 0xFF)
    (hheld : s.heldBeat = none) : (finishPixel b s).Inv where
  regs := regsInv_advanceRegs h.regs hs
  memory := h.memory
  cells := fun _ r c hrow hcol => by
    simp only [finishPixel, advance_regs, emit_regs, advanceRegs_width, advanceRegs_height] at hrow hcol ⊢
    exact h.cells hs r c hrow hcol
  beats := fun x hx => by
    rcases List.mem_append.1 hx with hx | hx
    · exact h.beats x hx
    · rw [List.mem_singleton.1 hx]; exact hb
  frameSize := by
    obtain ⟨hw, hh, hrow, hcol⟩ := h.regs.run hs
    have hframe := h.frameSize.run hs
    rcases advanceRegs_cases hs hrow hcol with ⟨e, _, _⟩ | ⟨e, hrow', hcol'⟩
    · exact ⟨fun e' => (by cases e.symm.trans e'), fun _ => by simp [finishPixel, hframe],
        fun e' => (by cases e.symm.trans e')⟩
    · exact ⟨fun e' => (by cases e.symm.trans e'), fun e' => (by cases e.symm.trans e'),
        fun _ => ⟨_, hframe, .inl ⟨hrow', hcol', hw, hh⟩⟩⟩
  hold := fun b' hb' => by cases hheld.symm.trans hb'

/-- Whatever the host does with its readiness; the beat it takes is one of the two of R46. -/
theorem inv_setOutReady {s : State} (ready : Bool) (h : s.Inv) : (setOutReady ready s).Inv := by
  rcases setOutReady_cases ready s with ⟨hr, e⟩ | ⟨b, hb, -, e⟩ <;> rw [e]
  · exact inv_outReady h hr
  · obtain ⟨hrun, -, hval⟩ := h.hold b hb
    have hfree : State.Inv { s with outReady := true, heldBeat := none } :=
      inv_of_same h rfl rfl rfl rfl fun _ h' => by cases h'
    exact inv_finishPixel hfree hrun hval rfl

/-- A beat taken at once leaves what one withheld and then taken leaves (`setOutReady_heldState`). -/
theorem inv_pixelState {s : State} (p n : Pix) (h : s.Inv) (hs : s.regs.state = .run) (hr : s.outReady = true)
    (hb : s.heldBeat = none) : (pixelState p n s).Inv := by
  have hheld := inv_heldState p n (inv_outReady h (.inr rfl)) hs rfl
  have htaken := setOutReady_heldState p n { s with outReady := false } hb
  have hsame : { s with outReady := true } = s := by rw [← hr]
  rw [hsame] at htaken
  exact htaken ▸ inv_setOutReady true hheld

/-! ### Every event -/

/-- An accepted word, taken while no beat is held, keeps the invariant. -/
theorem WordEffect.keeps_inv {cmd : Word} {s t : State} (e : WordEffect cmd s t) (h : s.Inv) (hb : s.heldBeat = none) :
    t.Inv := by
  cases e with
  | unchanged => exact h
  | fault cause hc => exact inv_takeFault cmd h hb hc
  | nonfinite => exact inv_takeFault cmd (inv_of_same h rfl rfl rfl rfl h.hold) hb (by decide)
  | setw w _ hs => exact inv_resize w s.regs.height h hs
  | seth v _ hs => exact inv_resize s.regs.width v h hs
  | start _ hs => exact inv_startState h hs
  | pixel p n _ hs _ hr => exact inv_pixelState p n h hs hr hb
  | held p n _ hs _ hr => exact inv_heldState p n h hs hr

/-- A host write that has a meaning hits no cell of a running frame. -/
theorem inv_hostWrite {s : State} {a : ErrAddr} (v : F64) (h : s.Inv) (ho : owned s a = false) :
    State.Inv { s with err := s.err.writeWord a v } where
  regs := h.regs
  memory := wf_writeWord a v h.memory
  cells := fun hs r c hr hc => by
    obtain ⟨hwritten, hne⟩ := h.cells hs r c hr hc
    rw [wordWritten_writeWord, readWord_writeWord_ne v (ne_cellAddr_of_not_owned ho hs hr hc), hwritten]
    exact ⟨Bool.or_true _, hne⟩
  beats := h.beats
  frameSize := ⟨h.frameSize.idle, h.frameSize.run, h.frameSize.done⟩
  hold := h.hold

theorem takeInput_keeps_inv {s t : State} {event : Input} (h : s.Inv) (hw : event.isWord = true → s.heldBeat = none)
    (ht : takeInput event s = .next t) : t.Inv := by
  cases event with
  | command cmd => exact (WordEffect.of_execWord ht).keeps_inv h (hw rfl)
  | reset =>
    cases ht
    exact inv_resetBlock h
  | resetDuring cmd kept b =>
    obtain ⟨u, hu, rfl⟩ := execWordAbandoned_next ht
    exact inv_abandon kept b h ((WordEffect.of_execWord hu).keeps_inv h (hw rfl))
  | hostRead a => exact hostRead_next ht ▸ h
  | hostWrite a v =>
    obtain ⟨ho, rfl⟩ := hostWrite_next ht
    exact inv_hostWrite v h ho
  | outReady ready =>
    cases ht
    exact inv_setOutReady ready h

theorem step_keeps_inv {s t : State} (h : s.Inv) (ht : step s = .next t) : t.Inv := by
  rcases step_next ht with ⟨_, rfl⟩ | ⟨event, rest, hn, ht⟩
  · exact h
  · have htaken : State.Inv { s with input := rest } := inv_of_same h rfl rfl rfl rfl h.hold
    have hword : event.isWord = true → s.heldBeat = none := heldBeat_of_nextEvent_word hn
    exact takeInput_keeps_inv htaken hword ht

/-- Settles O55: every event of the outside keeps the invariant, and so does waiting. -/
theorem everyStepKeepsTheInvariant : Obligations.EveryStepKeepsTheInvariant := by
  unfold Obligations.EveryStepKeepsTheInvariant
  exact fun _ _ => step_keeps_inv

/-- Settles O54: the state after reset is one that a reset left. -/
theorem invariantHoldsAtReset : Obligations.InvariantHoldsAtReset := by
  unfold Obligations.InvariantHoldsAtReset
  exact inv_of_reset rfl rfl rfl wf_nil (by simp [State.reset])

end Sys2Proof.StateProofs
end

section
/-! SUPPORT. What single registers can do in one step: the size WIDTH by HEIGHT, the end-of-frame position of R33 (b), and
the STATUS view. -/

namespace Sys2Proof.StateProofs

open Machine Laws

/-! ### WIDTH and HEIGHT (R23, R24) -/

/-- What an event does to the size: nothing, a reset, SETW of its operand, or SETH of its operand. -/
def SizeEffect (event : Input) (r r' : Regs) : Prop :=
  (r'.width = r.width ∧ r'.height = r.height)
    ∨ (r' = Regs.reset ∧ (event = .reset ∨ ∃ cmd kept b, event = .resetDuring cmd kept b))
    ∨ (∃ w, event = .command (encode (.setw w)) ∧ r' = { r with width := w })
    ∨ ∃ h, event = .command (encode (.seth h)) ∧ r' = { r with height := h }

theorem WordEffect.size {cmd : Word} {s t : State} (e : WordEffect cmd s t) :
    SizeEffect (.command cmd) s.regs t.regs := by
  cases e with
  | setw w hi => exact .inr (.inr (.inl ⟨w, congrArg _ hi, rfl⟩))
  | seth h hi => exact .inr (.inr (.inr ⟨h, congrArg _ hi, rfl⟩))
  | pixel p n => exact .inl ⟨advanceRegs_width _, advanceRegs_height _⟩
  | unchanged | fault | nonfinite | start | held => exact .inl ⟨rfl, rfl⟩

theorem takeInput_size {s t : State} {event : Input} (ht : takeInput event s = .next t) :
    SizeEffect event s.regs t.regs := by
  cases event with
  | command cmd => exact (WordEffect.of_execWord ht).size
  | reset =>
    cases ht
    exact .inr (.inl ⟨rfl, .inl rfl⟩)
  | resetDuring cmd kept b =>
    obtain ⟨u, -, rfl⟩ := execWordAbandoned_next ht
    exact .inr (.inl ⟨rfl, .inr ⟨cmd, kept, b, rfl⟩⟩)
  | hostRead a =>
    cases hostRead_next ht
    exact .inl ⟨rfl, rfl⟩
  | hostWrite a v =>
    obtain ⟨-, rfl⟩ := hostWrite_next ht
    exact .inl ⟨rfl, rfl⟩
  | outReady ready =>
    cases ht
    rcases setOutReady_cases ready s with ⟨-, e⟩ | ⟨b, -, -, e⟩ <;> rw [e]
    · exact .inl ⟨rfl, rfl⟩
    · exact .inl ⟨advanceRegs_width _, advanceRegs_height _⟩

/-- Settles O34: a waiting step changes nothing, and each event has one of the effects of `SizeEffect`. -/
theorem dimensionsAreWrittenOnlyByTheirCommand : Obligations.DimensionsAreWrittenOnlyByTheirCommand := by
  unfold Obligations.DimensionsAreWrittenOnlyByTheirCommand
  intro s t ht
  rcases step_next ht with ⟨_, rfl⟩ | ⟨event, rest, hn, ht⟩
  · exact ⟨.inl rfl, .inl rfl⟩
  rw [hn]
  rcases takeInput_size ht with ⟨hw, hh⟩ | ⟨hr, hevent⟩ | ⟨w, rfl, hr⟩ | ⟨h, rfl, hr⟩
  · exact ⟨.inl hw, .inl hh⟩
  · have hreset : ∃ rest', some (event, rest) = some (.reset, rest')
        ∨ ∃ cmd kept b, some (event, rest) = some (.resetDuring cmd kept b, rest') := by
      rcases hevent with rfl | ⟨cmd, kept, b, rfl⟩
      · exact ⟨rest, .inl rfl⟩
      · exact ⟨rest, .inr ⟨cmd, kept, b, rfl⟩⟩
    exact ⟨.inr (.inl ⟨hr, hreset⟩), .inr (.inl ⟨hr, hreset⟩)⟩
  · exact ⟨.inr (.inr ⟨w, rest, rfl, hr⟩), .inl (by rw [hr])⟩
  · exact ⟨.inl (by rw [hr]), .inr (.inr ⟨h, rest, rfl, hr⟩)⟩

/-! ### The end-of-frame position (R33 (b)) -/

/-- While the registers have the size of the frame, R33 (b) of the frame is R33 (b) of the registers. -/
theorem frameEnd_of_frame {s : State} (h : s.Inv) (hf : s.frame = some ⟨s.regs.width, s.regs.height⟩) :
    s.regs.FrameEnd := by
  intro hs
  obtain ⟨f, hf', hend⟩ := h.frameSize.done hs
  cases hf.symm.trans hf'
  exact hend

theorem frameEnd_of_ne_done {r : Regs} (h : r.state ≠ .done) : r.FrameEnd := fun hs => absurd hs h

/-- A PIXEL's end keeps the size that START recorded, so it ends in R33 (b) of the registers. -/
theorem frameEnd_of_advance {s t : State} (hs : s.Inv) (ht : t.Inv) (hrun : s.regs.state = .run)
    (hregs : t.regs = advanceRegs s.regs) (hframe : t.frame = s.frame) : t.regs.FrameEnd := by
  refine frameEnd_of_frame ht ?_
  rw [hframe, hregs, advanceRegs_width, advanceRegs_height]
  exact hs.frameSize.run hrun

theorem WordEffect.frameEnd {cmd : Word} {s t : State} (e : WordEffect cmd s t) (hs : s.Inv) (ht : t.Inv)
    (h : s.regs.FrameEnd) :
    t.regs.FrameEnd ∨ (s.regs.state = .done ∧ ∃ v, cmd = encode (.setw v) ∨ cmd = encode (.seth v)) := by
  cases e with
  | unchanged | held => exact .inl h
  | fault | nonfinite => exact .inl (frameEnd_of_ne_done (by simp))
  | setw w hi hstate =>
    rcases hstate with hidle | hdone
    · exact .inl (frameEnd_of_ne_done (by simp [hidle]))
    · exact .inr ⟨hdone, w, .inl hi⟩
  | seth v hi hstate =>
    rcases hstate with hidle | hdone
    · exact .inl (frameEnd_of_ne_done (by simp [hidle]))
    · exact .inr ⟨hdone, v, .inr hi⟩
  | start => exact .inl (frameEnd_of_frame ht rfl)
  | pixel p n _ hrun => exact .inl (frameEnd_of_advance hs ht hrun rfl rfl)

theorem takeInput_frameEnd {s t : State} {event : Input} (hs : s.Inv) (ht : t.Inv) (h : s.regs.FrameEnd)
    (he : takeInput event s = .next t) :
    t.regs.FrameEnd
      ∨ (s.regs.state = .done ∧ ∃ v, event = .command (encode (.setw v)) ∨ event = .command (encode (.seth v))) := by
  cases event with
  | command cmd => simpa using (WordEffect.of_execWord he).frameEnd hs ht h
  | reset =>
    cases he
    exact .inl (frameEnd_of_ne_done (r := Regs.reset) (by decide))
  | resetDuring cmd kept b =>
    obtain ⟨u, -, rfl⟩ := execWordAbandoned_next he
    exact .inl (frameEnd_of_ne_done (r := Regs.reset) (by decide))
  | hostRead a =>
    cases hostRead_next he
    exact .inl h
  | hostWrite a v =>
    obtain ⟨-, rfl⟩ := hostWrite_next he
    exact .inl h
  | outReady ready =>
    cases he
    rcases setOutReady_cases ready s with ⟨-, e⟩ | ⟨b, hb, -, e⟩ <;> rw [e] at ht ⊢
    · exact .inl h
    · exact .inl (frameEnd_of_advance hs ht (hs.hold b hb).1 rfl rfl)

/-- In DONE no beat is held, so the next event is the oldest. -/
theorem heldBeat_of_done {s : State} (h : s.HoldInv) (hs : s.regs.state = .done) : s.heldBeat = none := by
  cases hb : s.heldBeat with
  | none => rfl
  | some b => cases hs.symm.trans (h b hb).1

/-- Settles O56: in DONE only START moves the position or changes the recorded size, and SETW and SETH are the two words
that change the size without the position. -/
theorem frameEndIsKeptButBySetup : Obligations.FrameEndIsKeptButBySetup := by
  unfold Obligations.FrameEndIsKeptButBySetup
  refine ⟨fun s => frameEnd_of_frame, fun s t hs hend ht => ?_⟩
  have htinv : t.Inv := step_keeps_inv hs ht
  rcases step_next ht with ⟨_, rfl⟩ | ⟨event, rest, hn, ht⟩
  · exact .inl hend
  have htaken : State.Inv { s with input := rest } := inv_of_same hs rfl rfl rfl rfl hs.hold
  rcases takeInput_frameEnd htaken htinv hend ht with hend' | ⟨hdone, v, hevent⟩
  · exact .inl hend'
  · have hinput := input_of_nextEvent (heldBeat_of_done hs.hold hdone) hn
    refine .inr ⟨hdone, v, rest, ?_⟩
    rcases hevent with rfl | rfl
    · exact .inl hinput
    · exact .inr hinput

/-- A frame of one pixel that has ended, at (1, 0), with ERR as after power-up. -/
def onePixelDone : State :=
  { State.reset with
    regs := { Regs.reset with state := .done, width := 1, height := 1, row := 1 }
    frame := some ⟨1, 1⟩ }

theorem onePixelDone_frameEnd : onePixelDone.regs.FrameEnd := fun _ => .inl (by decide)

theorem onePixelDone_inv : onePixelDone.Inv where
  regs := by constructor <;> decide
  memory := wf_nil
  cells := fun hs => by cases hs
  beats := by simp [onePixelDone, State.reset]
  frameSize := ⟨fun hs => (by cases hs), fun hs => (by cases hs), fun _ => ⟨⟨1, 1⟩, rfl, .inl (by decide)⟩⟩
  hold := fun b hb => by cases hb

/-- Settles O57: SETH 2 after a frame of one pixel leaves DONE at (1, 0), where R33 (b) asks for (2, 0). -/
theorem setupInDoneCanBreakFrameEnd : Obligations.SetupInDoneCanBreakFrameEnd := by
  unfold Obligations.SetupInDoneCanBreakFrameEnd
  exact ⟨onePixelDone, { onePixelDone with regs := { onePixelDone.regs with height := 2 } }, 2, onePixelDone_inv,
    onePixelDone_frameEnd, rfl, rfl, fun hend => absurd (hend rfl) (by decide)⟩

/-! ### STATUS (R28) -/

/-- The bits of a word laid out as R28 lays out STATUS. -/
theorem getLsbD_statusLayout (err done : Bool) (cause : BitVec 4) (state : BitVec 2) (i : Nat) :
    (0#22 ++ BitVec.ofBool err ++ BitVec.ofBool done ++ cause ++ 0#2 ++ state).getLsbD i =
      if i < 2 then state.getLsbD i
      else if i < 4 then false
      else if i < 8 then cause.getLsbD (i - 4)
      else if i = 8 then done
      else if i = 9 then err
      else false := by
  simp only [BitVec.getLsbD_append, BitVec.getLsbD_ofBool, BitVec.getLsbD_zero]
  grind

theorem status_getLsbD (r : Regs) (i : Nat) :
    r.status.getLsbD i =
      if i < 2 then r.state.code.getLsbD i
      else if i < 4 then false
      else if i < 8 then r.cause.code.getLsbD (i - 4)
      else if i = 8 then r.doneBit
      else if i = 9 then r.errBit
      else false :=
  getLsbD_statusLayout r.errBit r.doneBit r.cause.code r.state.code i

theorem status_state (r : Regs) : r.status.extractLsb' 0 2 = r.state.code := by
  ext i hi
  rw [BitVec.getElem_extractLsb', status_getLsbD, Nat.zero_add, if_pos hi, BitVec.getLsbD_eq_getElem hi]

theorem status_reserved_low (r : Regs) : r.status.extractLsb' 2 2 = 0#2 := by
  ext i hi
  rw [BitVec.getElem_extractLsb', status_getLsbD, if_neg (by omega), if_pos (by omega), BitVec.getElem_zero]

theorem status_cause (r : Regs) : r.status.extractLsb' 4 4 = r.cause.code := by
  ext i hi
  rw [BitVec.getElem_extractLsb', status_getLsbD, if_neg (by omega), if_neg (by omega), if_pos (by omega),
    Nat.add_sub_cancel_left, BitVec.getLsbD_eq_getElem hi]

theorem status_done (r : Regs) : r.status.getLsbD 8 = r.doneBit := status_getLsbD r 8

theorem status_error (r : Regs) : r.status.getLsbD 9 = r.errBit := status_getLsbD r 9

theorem status_reserved_high (r : Regs) : r.status.extractLsb' 10 22 = 0#22 := by
  ext i hi
  rw [BitVec.getElem_extractLsb', status_getLsbD, if_neg (by omega), if_neg (by omega), if_neg (by omega),
    if_neg (by omega), if_neg (by omega), BitVec.getElem_zero]

/-- Settles O53: field by field, the level outputs being bits of STATUS. -/
theorem statusFields : Obligations.StatusFields := by
  unfold Obligations.StatusFields
  refine ⟨by decide, fun r => ⟨?_, status_reserved_low r, ?_, ?_, ?_, status_reserved_high r, ?_, ?_⟩⟩
  · rw [status_state]
    cases r.state <;> rfl
  · rw [status_cause]
    cases r.cause <;> rfl
  · rw [status_done, Regs.doneBit, decide_eq_true_iff]
  · rw [status_error, Regs.errBit, decide_eq_true_iff]
  · rw [Regs.doneOut, status_done, Regs.doneBit, decide_eq_true_iff]
  · rw [Regs.errOut, status_error, Regs.errBit, decide_eq_true_iff]

end Sys2Proof.StateProofs
end

section
/-! SUPPORT. The error memory at the port and from the outside: where a buffer cell lies (R41, R43), what a word write
leaves in words and bytes (R45, R48), and what the host may do to ERR (R52, R53). -/

namespace Sys2Proof.MemoryProofs

open Machine Laws StateProofs

/-! ### Cell addresses (R41, R43) -/

/-- A cell of the buffer lies below the buffer's end: rows come one after the other, each W + 1 words long. -/
theorem cellAddr_lt_bufferEnd {w h r c : Nat} (hw : w < 2 ^ 16) (hh : h < 2 ^ 16) (hr : r ≤ h) (hc : c ≤ w) :
    (cellAddr w r c).toNat < (h + 1) * (w + 1) := by
  have hrows : (r + 1) * (w + 1) ≤ (h + 1) * (w + 1) := Nat.mul_le_mul_right _ (by omega)
  rw [Nat.add_mul r] at hrows
  rw [cellAddr_toNat hw (by omega) (by omega)]
  omega

/-- Settles O49: no address wraps, and a cell's row and column are the quotient and remainder of its address by W + 1. -/
theorem cellAddressesAreDistinct : Obligations.CellAddressesAreDistinct := by
  unfold Obligations.CellAddressesAreDistinct
  intro w h r c r' c' hw hh hr hc hr' hc'
  refine ⟨cellAddr_toNat (by omega) (by omega) (by omega), cellAddr_lt_bufferEnd (by omega) (by omega) hr hc,
    cellAddr_inj (by omega) (by omega) (by omega) hc hc', ?_⟩
  rintro ⟨rfl, rfl⟩
  rfl

/-! ### Words and bytes (R45, R48) -/

/-- Settles O50: a write is seen whole by a read of its word and not at all by a read of another. -/
theorem readReturnsTheLastWrite : Obligations.ReadReturnsTheLastWrite := by
  unfold Obligations.ReadReturnsTheLastWrite
  intro s a b v
  rw [errRead_fst, errRead_fst, errWrite_err, readWord_writeWord]

/-- Settles O51: the bytes of the word are those from 8*a to 8*a + 7, lowest first, and the write touches no other. -/
theorem wordsAreLittleEndian : Obligations.WordsAreLittleEndian := by
  unfold Obligations.WordsAreLittleEndian
  intro s a v b
  rw [errWrite_err, readByte_writeWord, byteAddr]
  constructor
  · rintro i hi rfl
    rw [if_pos (by omega), Nat.add_sub_cancel_left, wordByte]
  · intro hb
    rw [if_neg (by omega)]

/-! ### The host's accesses (R52, R53) -/

/-- The block owns exactly the buffer's words, and only while a frame is in progress. -/
theorem owned_iff {s : State} {a : ErrAddr} :
    owned s a = true ↔
      s.regs.state = .run ∧ a.toNat < (s.regs.height.toNat + 1) * (s.regs.width.toNat + 1) := by
  simp [owned]

/-- An event that is no word and is the oldest offered is taken by the next step, whether a beat is held or not. -/
theorem step_of_not_word {s : State} {event : Input} {rest : List Input} (h : s.input = event :: rest)
    (hw : event.isWord = false) : step s = takeInput event { s with input := rest } := by
  rw [step, State.nextEvent, h, takeable_of_not_word _ _ hw]

theorem hostRead_of_owned {s : State} {a : ErrAddr} (h : owned s a = true) :
    hostRead a s = .refused .foreignErrAccess := if_pos h

theorem hostRead_of_not_owned {s : State} {a : ErrAddr} (h : ¬ owned s a = true) : hostRead a s = .next s := if_neg h

theorem hostWrite_of_owned {s : State} {a : ErrAddr} (v : F64) (h : owned s a = true) :
    hostWrite a v s = .refused .foreignErrAccess := if_pos h

theorem hostWrite_of_not_owned {s : State} {a : ErrAddr} (v : F64) (h : ¬ owned s a = true) :
    hostWrite a v s = .next { s with err := s.err.writeWord a v } := if_neg h

/-- Settles O15: the refused accesses are those to words the block owns, and a write that is none stores one word. -/
theorem hostAccessOnlyOutsideTheFrame : Obligations.HostAccessOnlyOutsideTheFrame := by
  unfold Obligations.HostAccessOnlyOutsideTheFrame
  intro s a v rest
  constructor
  · intro hin
    have ho : owned { s with input := rest } a = true := owned_iff.2 hin
    exact ⟨fun hi => (step_of_not_word hi rfl).trans (hostRead_of_owned ho),
      fun hi => (step_of_not_word hi rfl).trans (hostWrite_of_owned v ho)⟩
  · intro hout
    have ho : ¬ owned { s with input := rest } a = true := by
      rw [owned_iff, not_and_or, Nat.not_lt]
      exact hout
    exact ⟨fun hi => (step_of_not_word hi rfl).trans (hostRead_of_not_owned ho),
      fun hi => ⟨_, (step_of_not_word hi rfl).trans (hostWrite_of_not_owned v ho), rfl, rfl, rfl, rfl, rfl, rfl, rfl,
        fun a' => readWord_writeWord a a' v⟩⟩

end Sys2Proof.MemoryProofs
end

section
/-! SUPPORT. What a command shows at the two ports: the beat of a PIXEL (R46), and accesses to image cells only (R42,
R49). -/

namespace Sys2Proof.MemoryProofs

open Machine Laws StateProofs

/-! ### The output port (R46) -/

/-- The position advance ends a frame or goes on in it; it is no fault. -/
theorem advanceRegs_ne_error {r : Regs} (h : r.state = .run) : (advanceRegs r).state ≠ .error := by
  unfold advanceRegs
  split
  · simp [h]
  · by_cases hlast : r.row.toNat + 1 = r.height.toNat <;> simp [hlast, h]

/-- No other command has a word with PIXEL's opcode (R64). -/
theorem eq_pixel_of_encode_eq {i : Instr} {p n : Pix} (h : encode i = encode (.pixel p n)) :
    ∃ p' n', i = .pixel p' n' := by
  have hnum := congrArg BitVec.toNat h
  rw [encode_toNat, encode_toNat] at hnum
  cases i with
  | pixel p' n' => exact ⟨p', n', rfl⟩
  | setw w | seth w =>
    have hw := w.isLt
    dsimp only at hnum
    omega
  | nop | start =>
    dsimp only at hnum
    omega

/-- Only a PIXEL sends or holds a beat. -/
theorem no_beat_of_not_pixel {s t : State} {i : Instr} (h : exec i s = .next t) (hi : ∀ p n, i ≠ .pixel p n) :
    t.out = s.out ∧ t.heldBeat = s.heldBeat := by
  cases WordEffect.of_exec h with
  | unchanged | fault | nonfinite | setw | seth | start => exact ⟨rfl, rfl⟩
  | pixel p n he | held p n he =>
    obtain ⟨p', n', rfl⟩ := eq_pixel_of_encode_eq he
    exact absurd rfl (hi p' n')

/-- Settles O29: a PIXEL in RUN with a finite level sends or holds its one beat, and every other outcome of a command
leaves the output port alone. -/
theorem oneBeatPerPixel : Obligations.OneBeatPerPixel := by
  unfold Obligations.OneBeatPerPixel
  intro s t i h
  by_cases hi : ∀ p n, i ≠ .pixel p n
  · obtain ⟨hout, hheld⟩ := no_beat_of_not_pixel h hi
    exact .inl ⟨hout, hheld, fun _ => hi⟩
  · push Not at hi
    obtain ⟨p, n, rfl⟩ := hi
    rcases execPixel_cases p n s with ⟨hs, e⟩ | ⟨hs, e⟩ | ⟨_, _, e⟩ | ⟨hs, _, hr, e⟩ | ⟨hs, _, hr, e⟩ <;>
      cases e.symm.trans h
    · exact .inl ⟨rfl, rfl, fun hrun => absurd hs hrun.2⟩
    · exact .inl ⟨rfl, rfl, fun hrun => absurd rfl hrun.2⟩
    · exact .inl ⟨rfl, rfl, fun hrun => absurd rfl hrun.2⟩
    · exact .inr ⟨⟨p, n, rfl⟩, hs, advanceRegs_ne_error hs, beatNow p n s, beatOf_cases _, fun _ => ⟨rfl, rfl⟩,
        fun hr' => absurd (hr.symm.trans hr') (by decide)⟩
    · exact .inr ⟨⟨p, n, rfl⟩, hs, by simp [heldState, hs], beatNow p n s, beatOf_cases _,
        fun hr' => absurd (hr.symm.trans hr') (by decide), fun _ => ⟨rfl, rfl⟩⟩

/-! ### The error-memory port (R42, R49) -/

/-- The access is to one of the words `cells`. -/
def AccessIn (cells : List ErrAddr) (e : ErrAccess) : Prop := ∃ a ∈ cells, e = .read a ∨ ∃ v, e = .write a v

/-- Between `s` and `t` the port has shown accesses to the words `cells` only, and no byte outside them has changed. -/
def AccessesOnly (cells : List ErrAddr) (s t : State) : Prop :=
  ∃ accesses, t.errTrace = s.errTrace ++ accesses
    ∧ (∀ e ∈ accesses, AccessIn cells e)
    ∧ ∀ b, (∀ a ∈ cells, ¬ (byteAddr a ≤ b ∧ b < byteAddr a + 8)) → t.err.readByte b = s.err.readByte b

/-- Where the port showed nothing and ERR is as before. -/
theorem AccessesOnly.of_same {s t : State} (cells : List ErrAddr) (htrace : t.errTrace = s.errTrace)
    (herr : t.err = s.err) : AccessesOnly cells s t :=
  ⟨[], by simp [htrace], by simp, fun b _ => by rw [herr]⟩

theorem accessIn_addAccesses {cells : List ErrAddr} (adds : List (ErrAddr × F64)) (m : Memory)
    (h : ∀ x ∈ adds, x.1 ∈ cells) : ∀ e ∈ addAccesses adds m, AccessIn cells e := by
  induction adds generalizing m with
  | nil => simp [addAccesses]
  | cons x rest ih =>
    intro e he
    have hx : x.1 ∈ cells := h x (by simp)
    rcases List.mem_cons.1 he with rfl | he
    · exact ⟨x.1, hx, .inl rfl⟩
    rcases List.mem_cons.1 he with rfl | he
    · exact ⟨x.1, hx, .inr ⟨_, rfl⟩⟩
    · exact ih _ (fun y hy => h y (by simp [hy])) e he

/-- The image cells of the frame (R42). -/
def cellsOf (r : Regs) : List ErrAddr := imageCells r.width.toNat r.height.toNat

theorem mem_cellsOf {r : Regs} {a : ErrAddr} :
    a ∈ cellsOf r ↔ ∃ row col, row < r.height.toNat ∧ col < r.width.toNat ∧ a = cellAddr r.width.toNat row col :=
  mem_imageCells

/-- In RUN the cell of the next PIXEL is an image cell (R33 (a)). -/
theorem currentCell_mem {s : State} (h : s.regs.Inv) (hs : s.regs.state = .run) : currentCell s ∈ cellsOf s.regs := by
  obtain ⟨-, -, hrow, hcol⟩ := h.run hs
  exact mem_cellsOf.2 ⟨_, _, hrow, hcol, rfl⟩

/-- In RUN the targets of a PIXEL's additions are image cells (R93). -/
theorem pixelAdds_target_mem {s : State} (p n : Pix) (x : F64) (h : s.regs.Inv) (hs : s.regs.state = .run) :
    ∀ y ∈ pixelAdds p n x s, y.1 ∈ cellsOf s.regs := by
  obtain ⟨-, -, hrow, hcol⟩ := h.run hs
  exact fun y hy => mem_cellsOf.2 (additions_target hrow hcol hy)

/-- A PIXEL with a finite level reads its cell and makes its additions; that its beat is withheld changes neither. -/
theorem accessesOnly_heldState {s : State} (p n : Pix) (h : s.regs.Inv) (hs : s.regs.state = .run) :
    AccessesOnly (cellsOf s.regs) s (heldState p n s) := by
  have htargets := pixelAdds_target_mem p n (levelNow p s) h hs
  refine ⟨_, rfl, fun e he => ?_, fun b hb => readByte_addMemory _ _ _ fun x hx => hb x.1 (htargets x hx)⟩
  rcases List.mem_cons.1 he with rfl | he
  · exact ⟨_, currentCell_mem h hs, .inl rfl⟩
  · exact accessIn_addAccesses _ _ htargets e he

theorem accessesOnly_startState (s : State) : AccessesOnly (cellsOf s.regs) s (startState s) := by
  refine ⟨_, rfl, fun e he => ?_, fun b hb => readByte_foldl_writeWord _ _ _ _ hb⟩
  obtain ⟨a, ha, rfl⟩ := List.mem_map.1 he
  exact ⟨a, ha, .inr ⟨_, rfl⟩⟩

theorem accessesOnly_of_wordEffect {cmd : Word} {s t : State} (e : WordEffect cmd s t) (h : s.regs.Inv) :
    AccessesOnly (cellsOf s.regs) s t := by
  cases e with
  | unchanged | fault | setw | seth => exact .of_same _ rfl rfl
  | nonfinite p n _ hs =>
    refine ⟨[.read (currentCell s)], rfl, fun e he => ?_, fun b _ => rfl⟩
    rw [List.mem_singleton.1 he]
    exact ⟨_, currentCell_mem h hs, .inl rfl⟩
  | start => exact accessesOnly_startState s
  | pixel p n _ hs => exact accessesOnly_heldState p n h hs
  | held p n _ hs => exact accessesOnly_heldState p n h hs

/-- Settles O31: each effect of a command accesses nothing, the cell at (ROW, COL), the targets inside the frame, or the
cells that START clears. -/
theorem onlyImageCellsAreAccessed : Obligations.OnlyImageCellsAreAccessed := by
  unfold Obligations.OnlyImageCellsAreAccessed
  intro s t i hinv h
  obtain ⟨accesses, htrace, hin, hbytes⟩ := accessesOnly_of_wordEffect (.of_exec h) hinv
  refine ⟨accesses, htrace, fun e he => ?_, fun b hb => hbytes b fun a ha => ?_⟩
  · obtain ⟨a, ha, haccess⟩ := hin e he
    obtain ⟨r, c, hr, hc, rfl⟩ := mem_cellsOf.1 ha
    exact ⟨r, c, hr, hc, haccess⟩
  · obtain ⟨r, c, hr, hc, rfl⟩ := mem_cellsOf.1 ha
    exact hb r c hr hc

end Sys2Proof.MemoryProofs
end

section
/-! SUPPORT. Noninterference (R42, R51): two states that differ in ERR only, and there outside some words, stay so under
every operation of a command, one rule per operation; the commands follow by their definitions. -/

namespace Sys2Proof.MemoryProofs

open Machine Laws StateProofs

/-- `u` is `s` but for ERR, and the words `cells` of ERR are the same. -/
def AgreeOn (cells : List ErrAddr) (s u : State) : Prop :=
  ∃ m, u = { s with err := m } ∧ ∀ a ∈ cells, s.err.readWord a = m.readWord a

/-- The words of ERR whose contents matter between commands: in RUN the image cells of the frame, else none. -/
def liveCells (r : Regs) : List ErrAddr := if r.state = .run then cellsOf r else []

theorem liveCells_of_run {r : Regs} (h : r.state = .run) : liveCells r = cellsOf r := if_pos h

theorem liveCells_of_ne_run {r : Regs} (h : r.state ≠ .run) : liveCells r = [] := if_neg h

theorem forall_mem_liveCells {r : Regs} {q : ErrAddr → Prop} :
    (∀ a ∈ liveCells r, q a) ↔
      (r.state = .run → ∀ row col, row < r.height.toNat → col < r.width.toNat → q (cellAddr r.width.toNat row col)) := by
  by_cases hs : r.state = .run
  · rw [liveCells_of_run hs]
    constructor
    · exact fun h _ row col hr hc => h _ (mem_cellsOf.2 ⟨row, col, hr, hc, rfl⟩)
    · intro h a ha
      obtain ⟨row, col, hr, hc, rfl⟩ := mem_cellsOf.1 ha
      exact h hs row col hr hc
  · simp [liveCells_of_ne_run hs, hs]

/-- The words that matter are cells of the frame. -/
theorem liveCells_subset {r : Regs} : ∀ a ∈ liveCells r, a ∈ cellsOf r := by
  unfold liveCells
  split
  · exact fun a ha => ha
  · simp

/-! ### The operations -/

section
variable {cells : List ErrAddr} {s u : State}

theorem AgreeOn.mono {cells' : List ErrAddr} (h : AgreeOn cells s u) (hsub : ∀ a ∈ cells', a ∈ cells) :
    AgreeOn cells' s u := by
  obtain ⟨m, rfl, hm⟩ := h
  exact ⟨m, rfl, fun a ha => hm a (hsub a ha)⟩

theorem AgreeOn.regs_eq (h : AgreeOn cells s u) : u.regs = s.regs := by
  obtain ⟨m, rfl, -⟩ := h
  rfl

theorem AgreeOn.roms_eq (h : AgreeOn cells s u) : u.roms = s.roms := by
  obtain ⟨m, rfl, -⟩ := h
  rfl

theorem AgreeOn.errRead_fst_eq {a : ErrAddr} (h : AgreeOn cells s u) (ha : a ∈ cells) :
    (errRead a u).1 = (errRead a s).1 := by
  obtain ⟨m, rfl, hm⟩ := h
  exact (hm a ha).symm

theorem AgreeOn.after_errRead (a : ErrAddr) (h : AgreeOn cells s u) :
    AgreeOn cells (errRead a s).2 (errRead a u).2 := by
  obtain ⟨m, rfl, hm⟩ := h
  exact ⟨m, rfl, hm⟩

theorem AgreeOn.after_errWrite (a : ErrAddr) (v : F64) (h : AgreeOn cells s u) :
    AgreeOn cells (errWrite a v s) (errWrite a v u) := by
  obtain ⟨m, rfl, hm⟩ := h
  refine ⟨m.writeWord a v, rfl, fun a' ha' => ?_⟩
  rw [errWrite_err, readWord_writeWord, readWord_writeWord, hm a' ha']

/-- An addition to an agreed word writes the same sum. -/
theorem AgreeOn.after_errAdd {a : ErrAddr} (t : F64) (h : AgreeOn cells s u) (ha : a ∈ cells) :
    AgreeOn cells (errAdd a t s) (errAdd a t u) := by
  have hwrite := (h.after_errRead a).after_errWrite a (add64 (errRead a s).1 t)
  nth_rw 2 [← h.errRead_fst_eq ha] at hwrite
  exact hwrite

theorem AgreeOn.after_addAll {adds : List (ErrAddr × F64)} (h : AgreeOn cells s u) (ha : ∀ x ∈ adds, x.1 ∈ cells) :
    AgreeOn cells (addAll adds s) (addAll adds u) := by
  induction adds generalizing s u with
  | nil => exact h
  | cons x rest ih => exact ih (h.after_errAdd x.2 (ha x (by simp))) fun y hy => ha y (by simp [hy])

/-- The targets of the additions are image cells (R93), so DISTRIB adds to agreed words only. -/
theorem AgreeOn.after_distrib (diff : F64) (p : Pix) {r c : Nat} (h : AgreeOn (cellsOf s.regs) s u)
    (hr : r < s.regs.height.toNat) (hc : c < s.regs.width.toNat) :
    AgreeOn (cellsOf s.regs) (distrib diff p r c s) (distrib diff p r c u) := by
  unfold distrib
  rw [h.regs_eq, h.roms_eq]
  exact h.after_addAll fun x hx => mem_cellsOf.2 (additions_target hr hc hx)

/-- Clearing writes make the cleared words agree, whatever they held (R114). -/
theorem AgreeOn.after_clearCells (w ht : Nat) (h : AgreeOn cells s u) :
    AgreeOn (imageCells w ht) (clearCells w ht s) (clearCells w ht u) := by
  obtain ⟨m, rfl, -⟩ := h
  rw [clearCells_spec, clearCells_spec]
  refine ⟨_, rfl, fun a ha => ?_⟩
  rw [readWord_foldl_writeWord, readWord_foldl_writeWord, if_pos ha, if_pos ha]

theorem AgreeOn.after_takeFault (cause : Cause) (cmd : Word) (h : AgreeOn cells s u) :
    AgreeOn cells (takeFault cause cmd s) (takeFault cause cmd u) := by
  obtain ⟨m, rfl, hm⟩ := h
  exact ⟨m, rfl, hm⟩

/-- Taken or withheld, the beat says nothing of ERR. -/
theorem AgreeOn.after_offerBeat (b : Beat) (h : AgreeOn cells s u) : AgreeOn cells (offerBeat b s) (offerBeat b u) := by
  obtain ⟨m, rfl, hm⟩ := h
  unfold offerBeat
  split
  · exact ⟨m, rfl, hm⟩
  · exact ⟨m, rfl, hm⟩

end

/-- Taken or withheld, the beat keeps the size of the frame. -/
theorem cellsOf_offerBeat (b : Beat) (s : State) : cellsOf (offerBeat b s).regs = cellsOf s.regs := by
  unfold offerBeat
  split
  · simp [cellsOf, finishPixel]
  · rfl

/-! ### The commands -/

/-- Next states of two runs agree on the words that matter after the command. -/
def ResultsAgree (x y : Result) : Prop :=
  ∀ t v, x = .next t → y = .next v → AgreeOn (liveCells t.regs) t v

section
variable {s u : State} {x y : Result}

theorem ResultsAgree.of_next (h : AgreeOn (liveCells s.regs) s u) : ResultsAgree (.next s) (.next u) := by
  rintro t v ⟨⟩ ⟨⟩
  exact h

/-- After a fault no word of ERR matters: ERROR is not RUN. -/
theorem ResultsAgree.of_raise {cells : List ErrAddr} (cause : Cause) (cmd : Word) (h : AgreeOn cells s u) :
    ResultsAgree (raise cause cmd s) (raise cause cmd u) := by
  refine .of_next ((h.after_takeFault cause cmd).mono ?_)
  simp [liveCells]

theorem ResultsAgree.of_unlessError (h : AgreeOn (liveCells s.regs) s u) (hx : ResultsAgree x y) :
    ResultsAgree (unlessError s x) (unlessError u y) := by
  unfold unlessError
  rw [h.regs_eq]
  split
  · exact .of_next h
  · exact hx

/-- SETW, SETH and START fault in RUN (R110). -/
theorem ResultsAgree.of_unlessRun (cmd : Word) (h : AgreeOn (liveCells s.regs) s u)
    (hx : s.regs.state ≠ .run → ResultsAgree x y) :
    ResultsAgree (unlessError s (if s.regs.state = .run then raise .badState cmd s else x))
      (unlessError u (if u.regs.state = .run then raise .badState cmd u else y)) := by
  refine .of_unlessError h ?_
  rw [h.regs_eq]
  split
  next => exact .of_raise _ _ h
  next hs => exact hx hs

theorem execSetw_agree (w : Dim) (h : AgreeOn (liveCells s.regs) s u) : ResultsAgree (execSetw w s) (execSetw w u) := by
  refine .of_unlessRun _ h fun hs => .of_next ?_
  obtain ⟨m, rfl, -⟩ := h
  exact ⟨m, rfl, by simp [liveCells, hs]⟩

theorem execSeth_agree (v : Dim) (h : AgreeOn (liveCells s.regs) s u) : ResultsAgree (execSeth v s) (execSeth v u) := by
  refine .of_unlessRun _ h fun hs => .of_next ?_
  obtain ⟨m, rfl, -⟩ := h
  exact ⟨m, rfl, by simp [liveCells, hs]⟩

/-- The words that matter after START are those it cleared. -/
theorem execStart_agree (h : AgreeOn (liveCells s.regs) s u) : ResultsAgree (execStart s) (execStart u) := by
  refine .of_unlessRun _ h fun _ => .of_next ?_
  obtain ⟨m, hu, hm⟩ := h.after_clearCells s.regs.width.toNat s.regs.height.toNat
  rw [h.regs_eq, hu]
  refine ⟨m, rfl, fun a ha => hm a ?_⟩
  have hcleared := liveCells_subset a ha
  rwa [clearCells_spec] at hcleared

theorem pixelStep_agree (p n : Pix) (x : F64) (hinv : s.regs.Inv) (hs : s.regs.state = .run)
    (h : AgreeOn (cellsOf s.regs) s u) : ResultsAgree (.next (pixelStep p n x s)) (.next (pixelStep p n x u)) := by
  obtain ⟨-, -, hrow, hcol⟩ := hinv.run hs
  unfold pixelStep
  rw [h.regs_eq, h.roms_eq]
  refine .of_next (((h.after_distrib _ p hrow hcol).after_offerBeat _).mono fun a ha => ?_)
  have hlive := liveCells_subset a ha
  rwa [cellsOf_offerBeat, distrib, addAll_regs] at hlive

/-- The cell a PIXEL reads is an agreed one, so both runs decide on the same level. -/
theorem execPixel_agree (p n : Pix) (hinv : s.regs.Inv) (h : AgreeOn (liveCells s.regs) s u) :
    ResultsAgree (execPixel p n s) (execPixel p n u) := by
  refine .of_unlessError h ?_
  rw [h.regs_eq]
  split
  next => exact .of_raise _ _ h
  next hs =>
    have hrun : s.regs.state = .run := not_not.1 hs
    rw [liveCells_of_run hrun] at h
    have hcell : currentCell u = currentCell s := by rw [currentCell, h.regs_eq, currentCell]
    have hlevel := h.errRead_fst_eq (currentCell_mem hinv hrun)
    have hread := h.after_errRead (currentCell s)
    dsimp only
    rw [hcell, hlevel]
    split
    · exact pixelStep_agree p n _ hinv hrun hread
    · exact .of_raise _ _ hread

end

/-- Every command keeps the agreement on the words that matter. -/
theorem exec_agree {s u : State} (i : Instr) (hinv : s.regs.Inv) (h : AgreeOn (liveCells s.regs) s u) :
    ResultsAgree (exec i s) (exec i u) := by
  cases i with
  | nop =>
    rw [exec, exec, execNop_eq, execNop_eq]
    exact .of_next h
  | setw w => exact execSetw_agree w h
  | seth v => exact execSeth_agree v h
  | start => exact execStart_agree h
  | pixel p n => exact execPixel_agree p n hinv h

/-- Settles O32: two states that agree on the image cells in RUN are two that agree on the words that matter. -/
theorem onlyImageCellsMatter : Obligations.OnlyImageCellsMatter := by
  unfold Obligations.OnlyImageCellsMatter
  intro s u t v i hinv hu hcells ht hv
  have h : AgreeOn (liveCells s.regs) s u := ⟨u.err, hu, forall_mem_liveCells.2 hcells⟩
  obtain ⟨m, rfl, hm⟩ := exec_agree i hinv h t v ht hv
  exact ⟨rfl, forall_mem_liveCells.1 hm⟩

end Sys2Proof.MemoryProofs
end

section
/-! SUPPORT. Words and commands (spec/30_encoding.md): decode and encode are inverse (R62, R63), which words are no
command (R65), and the rows of the opcode map (R64). -/

namespace Sys2Proof.EncodingProofs

open Machine Laws StateProofs

/-! ### The fields of each format (R62), bit by bit -/

@[simp] theorem opField_formatN (op : BitVec 4) : opField (formatN op) = op := by grind [opField, formatN]

@[simp] theorem rsv28Field_formatN (op : BitVec 4) : rsv28Field (formatN op) = 0 := by grind [rsv28Field, formatN]

section
variable (op : BitVec 4) (imm16 : Dim) (noise level : Pix)

@[simp] theorem opField_formatD : opField (formatD op imm16) = op := by grind [opField, formatD]

@[simp] theorem rsv12Field_formatD : rsv12Field (formatD op imm16) = 0 := by grind [rsv12Field, formatD]

@[simp] theorem imm16Field_formatD : imm16Field (formatD op imm16) = imm16 := by grind [imm16Field, formatD]

@[simp] theorem opField_formatP : opField (formatP op noise level) = op := by grind [opField, formatP]

@[simp] theorem rsv12Field_formatP : rsv12Field (formatP op noise level) = 0 := by grind [rsv12Field, formatP]

@[simp] theorem noiseField_formatP : noiseField (formatP op noise level) = noise := by grind [noiseField, formatP]

@[simp] theorem levelField_formatP : levelField (formatP op noise level) = level := by grind [levelField, formatP]

end

/-! ### Decode and encode (R62, R63) -/

/-- A command's word has the command's opcode, no reserved bit set, and its operands at their places. -/
theorem decode_encode (i : Instr) : decode (encode i) = .instr i := by
  cases i <;> simp [decode, encode]

/-- Settles O1: a command's word decodes to it, and a word that decodes to it has no bit of its own. -/
theorem decodeIsInverseOfEncode : Obligations.DecodeIsInverseOfEncode := by
  unfold Obligations.DecodeIsInverseOfEncode
  refine fun cmd i => ⟨eq_encode_of_decode, ?_⟩
  rintro rfl
  exact decode_encode i

/-- A word decodes to a command exactly when its number is that of the command's word. -/
theorem decode_eq_instr_iff {cmd : Word} {i : Instr} : decode cmd = .instr i ↔ cmd.toNat = (encode i).toNat := by
  rw [decodeIsInverseOfEncode, BitVec.toNat_inj]

/-- Settles O4: an operand's place in the number of the command's word is the field's. -/
theorem operandsAreTheUnsignedFields : Obligations.OperandsAreTheUnsignedFields := by
  unfold Obligations.OperandsAreTheUnsignedFields
  intro cmd
  simp only [decode_eq_instr_iff, encode_toNat]
  refine ⟨fun w hw => ?_, fun h hh => ?_, fun p n hpn => ?_⟩
  · have := w.isLt
    omega
  · have := h.isLt
    omega
  · have := p.isLt
    have := n.isLt
    omega

/-! ### Words that are no command (R65) -/

/-- The reserved opcodes are those from 5 on. -/
theorem decode_eq_illegalOpcode_iff (cmd : Word) : decode cmd = .illegalOpcode ↔ 5 ≤ cmd.toNat / 2 ^ 28 := by
  rw [decode_eq]
  generalize cmd.toNat / 2 ^ 28 = op
  split
  case h_6 => exact iff_of_true rfl (by grind)
  all_goals split <;> simp

/-- The reserved bits are RSV28 of the opcodes of format N, and RSV12 of those of formats D and P. -/
theorem decode_eq_reservedField_iff (cmd : Word) :
    decode cmd = .reservedField ↔
      ((cmd.toNat / 2 ^ 28 = 0 ∨ cmd.toNat / 2 ^ 28 = 3) ∧ cmd.toNat % 2 ^ 28 ≠ 0)
        ∨ ((cmd.toNat / 2 ^ 28 = 1 ∨ cmd.toNat / 2 ^ 28 = 2 ∨ cmd.toNat / 2 ^ 28 = 4)
            ∧ cmd.toNat / 2 ^ 16 % 2 ^ 12 ≠ 0) := by
  rw [decode_eq]
  generalize cmd.toNat / 2 ^ 28 = op
  split
  case h_6 => simp_all
  all_goals split <;> simp_all

/-- Settles O2: the conditions of R65 on OP and the reserved bits, and that decoding has no fourth answer. -/
theorem everyWordIsOneOfThree : Obligations.EveryWordIsOneOfThree := by
  unfold Obligations.EveryWordIsOneOfThree
  refine fun cmd => ⟨decode_eq_illegalOpcode_iff cmd, decode_eq_reservedField_iff cmd, ?_⟩
  cases decode cmd <;> simp

/-! ### The opcode map (R64) -/

/-- The mask of format N covers the whole word, so its row has the one word. -/
theorem and_full_mask_eq_iff (cmd : Word) (i : Instr) : cmd &&& 0xFFFFFFFF#32 = encode i ↔ decode cmd = .instr i := by
  rw [decodeIsInverseOfEncode, show 0xFFFFFFFF#32 = BitVec.allOnes 32 from rfl, BitVec.and_allOnes]

theorem formatD_toNat (op : BitVec 4) (imm16 : Dim) : (formatD op imm16).toNat = op.toNat * 2 ^ 28 + imm16.toNat := by
  rw [formatD, append_toNat, append_toNat, BitVec.toNat_zero]
  omega

/-- The mask of format D leaves IMM16 out: a row has the words of its opcode with every IMM16. -/
theorem and_upper_mask_eq_iff (cmd : Word) (op : BitVec 4) :
    cmd &&& 0xFFFF0000#32 = formatD op 0 ↔ ∃ imm16, cmd = formatD op imm16 := by
  have hcmd := cmd.isLt
  have hmask : cmd &&& 0xFFFF0000#32 = formatD op 0 ↔ cmd.toNat / 2 ^ 16 * 2 ^ 16 = op.toNat * 2 ^ 28 := by
    rw [and_upper_mask, ← BitVec.toNat_inj, formatD_toNat, BitVec.toNat_ofNat, Nat.mod_eq_of_lt (by omega)]
    simp
  simp only [hmask, ← BitVec.toNat_inj, formatD_toNat]
  constructor
  · intro h
    refine ⟨imm16Field cmd, ?_⟩
    rw [imm16Field_toNat]
    omega
  · rintro ⟨imm16, h⟩
    have := imm16.isLt
    omega

/-- NOISE and LEVEL of format P fill the place of IMM16 in format D. -/
theorem exists_formatP_iff (cmd : Word) (op : BitVec 4) :
    (∃ level noise, cmd = formatP op noise level) ↔ ∃ imm16, cmd = formatD op imm16 := by
  constructor
  · rintro ⟨level, noise, rfl⟩
    exact ⟨noise ++ level, by grind [formatP, formatD]⟩
  · rintro ⟨imm16, rfl⟩
    exact ⟨levelField (formatD op imm16), noiseField (formatD op imm16),
      by grind [formatP, formatD, levelField, noiseField]⟩

/-- Settles O3: the rows of format N have one word each, those of formats D and P the words of their opcode with every
operand. -/
theorem maskAndMatchSelectTheCommand : Obligations.MaskAndMatchSelectTheCommand := by
  unfold Obligations.MaskAndMatchSelectTheCommand
  intro cmd
  refine ⟨and_full_mask_eq_iff cmd .nop, ?_, ?_, and_full_mask_eq_iff cmd .start, ?_,
    (decode_eq_illegalOpcode_iff cmd).symm⟩
  all_goals simp only [decodeIsInverseOfEncode _ _]
  · exact and_upper_mask_eq_iff cmd 0x1
  · exact and_upper_mask_eq_iff cmd 0x2
  · exact (and_upper_mask_eq_iff cmd 0x4).trans (exists_formatP_iff cmd 0x4).symm

/-- Settles O5: each word of R70 is the encoding of its command, but for the three that are none. -/
theorem encodingExamplesDecode : Obligations.EncodingExamplesDecode := by
  unfold Obligations.EncodingExamplesDecode
  decide

end Sys2Proof.EncodingProofs
end

section
/-! SUPPORT. The assembler (R68, R69): a line in range gives its words, a line out of range none. -/

namespace Sys2Proof.EncodingProofs

open Machine Laws

theorem assemble_eq_none_iff (line : AsmLine) : assemble line = none ↔ line.wellFormed = false := by
  simp [assemble]

theorem assemble_eq_some_iff (line : AsmLine) (ws : List Word) :
    assemble line = some ws ↔ line.wellFormed = true ∧ lineWords line = ws := by
  simp [assemble]

/-- Settles O6: a FRAME in range has the words of its expansion, and one operand out of range is enough for none. -/
theorem frameExpandsExactly : Obligations.FrameExpandsExactly := by
  unfold Obligations.FrameExpandsExactly
  simp only [assemble_eq_none_iff, assemble_eq_some_iff, AsmLine.wellFormed, Bool.and_eq_true, Bool.and_eq_false_iff,
    decide_eq_true_eq, decide_eq_false_iff_not, Nat.not_le]
  exact fun w h => ⟨fun hin => ⟨hin, rfl⟩, fun hout => hout⟩

/-- Settles O7: in range, an operand's number survives its field's width, and the line's word decodes to its command. -/
theorem assembledOperandsDecodeBack : Obligations.AssembledOperandsDecodeBack := by
  unfold Obligations.AssembledOperandsDecodeBack
  simp only [assemble_eq_none_iff, assemble_eq_some_iff, AsmLine.wellFormed, decide_eq_true_eq, decide_eq_false_iff_not,
    Bool.and_eq_true, Bool.and_eq_false_iff, Nat.not_le, Nat.not_lt]
  refine ⟨by decide, fun v => ⟨trivial, ?_⟩, fun w p n => ⟨trivial, trivial, trivial, ?_, ?_, ?_⟩⟩
  · rintro _ ⟨hv, rfl⟩
    exact ⟨_, rfl, Nat.mod_eq_of_lt hv⟩
  · rintro _ ⟨hw, rfl⟩
    exact ⟨_, rfl, _, decode_encode _, Nat.mod_eq_of_lt (Nat.lt_succ_of_le hw)⟩
  · rintro _ ⟨hh, rfl⟩
    exact ⟨_, rfl, _, decode_encode _, Nat.mod_eq_of_lt (Nat.lt_succ_of_le hh)⟩
  · rintro _ ⟨⟨hp, hn⟩, rfl⟩
    exact ⟨_, rfl, _, _, decode_encode _, Nat.mod_eq_of_lt (Nat.lt_succ_of_le hp),
      Nat.mod_eq_of_lt (Nat.lt_succ_of_le hn)⟩

end Sys2Proof.EncodingProofs
end

section
/-! SUPPORT. The step that takes a command word (R61, R110): it executes what the word decodes to (R65). -/

namespace Sys2Proof.EncodingProofs

open Machine Laws

section
variable {s : State} {cmd : Word}

theorem execWord_of_instr {i : Instr} (h : decode cmd = .instr i) : execWord cmd s = exec i s := by
  rw [execWord, h]

/-- Outside ERROR a word with a reserved opcode takes its fault. -/
theorem execWord_of_illegalOpcode (h : decode cmd = .illegalOpcode) (hs : s.regs.state ≠ .error) :
    execWord cmd s = raise .illegalOpcode cmd s := by
  rw [execWord, h]
  exact unlessError_of_ne _ hs

/-- Outside ERROR a word with reserved bits set takes its fault. -/
theorem execWord_of_reservedField (h : decode cmd = .reservedField) (hs : s.regs.state ≠ .error) :
    execWord cmd s = raise .reservedField cmd s := by
  rw [execWord, h]
  exact unlessError_of_ne _ hs

/-- With no beat held, a word that is offered next is executed, and no longer offered. -/
theorem step_of_command {rest : List Input} (hb : s.heldBeat = none) (hi : s.input = .command cmd :: rest) :
    step s = execWord cmd { s with input := rest } := by
  rw [step, State.nextEvent, hb, hi]
  rfl

end

/-- Settles O8: the word is taken, and decoded to its command. -/
theorem stepRunsTheDecodedCommand : Obligations.StepRunsTheDecodedCommand := by
  unfold Obligations.StepRunsTheDecodedCommand
  intro s cmd rest i hb hi hd
  rw [step_of_command hb hi, execWord_of_instr hd]

/-- Settles O9: the word is taken, and raises its cause, which writes STATE, CAUSE and ERRCMD. -/
theorem illegalWordsTakeTheirFault : Obligations.IllegalWordsTakeTheirFault := by
  unfold Obligations.IllegalWordsTakeTheirFault
  intro s cmd rest hb hi hs
  rw [step_of_command hb hi]
  exact ⟨fun hd => execWord_of_illegalOpcode hd hs, fun hd => execWord_of_reservedField hd hs⟩

end Sys2Proof.EncodingProofs
end

section
/-! SUPPORT. Interval arithmetic of binary64: sums and products of non-negative values between natural numbers lie between
the sums and products of their bounds, since rounding is monotone and keeps those bounds. -/

namespace Sys2Proof.ThresholdProofs

open Machine Laws

/-- A non-negative finite value from `lo` to `hi`, not -0.0. -/
structure InRange (lo hi : Nat) (a : F64) : Prop where
  sign : signBit a = false
  finite : isFinite a = true
  lower : lo * unitsPerOne ≤ magUnits a
  upper : magUnits a ≤ hi * unitsPerOne

/-! ### Natural numbers as values -/

theorem isNaN_f64 {n : Nat} (hn : n < 2 ^ 53) : isNaN (f64 n) = false := isNaN_of_finite (f64_spec hn).2.1

theorem inRange_f64 {n : Nat} (hn : n < 2 ^ 53) : InRange n n (f64 n) := by
  obtain ⟨hs, hf, hm⟩ := f64_spec hn
  exact ⟨hs, hf, hm.ge, hm.le⟩

theorem magOf_magBits_f64 {n : Nat} (hn : n < 2 ^ 53) : magOf (magBits (f64 n)) = n * unitsPerOne := by
  rw [← magUnits_eq, (f64_spec hn).2.2]

theorem magBits_f64_lt {n : Nat} (hn : n < 2 ^ 53) : magBits (f64 n) < infBits := (isFinite_iff _).1 (f64_spec hn).2.1

theorem valueUnits_f64 {n : Nat} (hn : n < 2 ^ 53) : valueUnits (f64 n) = n * unitsPerOne := by
  rw [valueUnits_nonneg (f64_spec hn).1, magOf_magBits_f64 hn, Nat.cast_mul]

theorem ge64_f64_iff {x : F64} {n : Nat} (hx : isNaN x = false) (hn : n < 2 ^ 53) :
    ge64 x (f64 n) = true ↔ (n : Int) * unitsPerOne ≤ valueUnits x := by
  rw [ge64_iff hx (isNaN_f64 hn), valueUnits_f64 hn]

theorem f64_ge64_iff {x : F64} {n : Nat} (hx : isNaN x = false) (hn : n < 2 ^ 53) :
    ge64 (f64 n) x = true ↔ valueUnits x ≤ (n : Int) * unitsPerOne := by
  rw [ge64_iff (isNaN_f64 hn) hx, valueUnits_f64 hn]

theorem f64_zero : f64 0 = posZero := by decide +kernel

theorem f64_one : f64 1 = val1 := by decide +kernel

theorem f64_128 : f64 128 = val128 := by decide +kernel

theorem f64_255 : f64 255 = val255 := by decide +kernel

theorem isNaN_posZero : isNaN posZero = false := f64_zero ▸ isNaN_f64 (by decide)

theorem isNaN_val255 : isNaN val255 = false := f64_255 ▸ isNaN_f64 (by decide)

/-! ### What a range says -/

section
variable {lo hi lo' hi' : Nat} {a b : F64}

theorem InRange.not_nan (h : InRange lo hi a) : isNaN a = false := isNaN_of_finite h.finite

theorem InRange.not_inf (h : InRange lo hi a) : isInf a = false := isInf_of_finite h.finite

theorem InRange.valueUnits_eq (h : InRange lo hi a) : valueUnits a = (magUnits a : Int) := by
  rw [valueUnits_nonneg h.sign, magUnits_eq]

theorem InRange.le_valueUnits (h : InRange lo hi a) : (lo : Int) * unitsPerOne ≤ valueUnits a := by
  rw [h.valueUnits_eq]
  exact_mod_cast h.lower

theorem InRange.valueUnits_le (h : InRange lo hi a) : valueUnits a ≤ (hi : Int) * unitsPerOne := by
  rw [h.valueUnits_eq]
  exact_mod_cast h.upper

theorem InRange.ge64_lower (h : InRange lo hi a) (hlo : lo < 2 ^ 53) : ge64 a (f64 lo) = true :=
  (ge64_f64_iff h.not_nan hlo).2 h.le_valueUnits

theorem InRange.ge64_upper (h : InRange lo hi a) (hhi : hi < 2 ^ 53) : ge64 (f64 hi) a = true :=
  (f64_ge64_iff h.not_nan hhi).2 h.valueUnits_le

theorem InRange.mono (h : InRange lo hi a) (hlo : lo' ≤ lo) (hhi : hi ≤ hi') : InRange lo' hi' a where
  sign := h.sign
  finite := h.finite
  lower := (Nat.mul_le_mul_right _ hlo).trans h.lower
  upper := h.upper.trans (Nat.mul_le_mul_right _ hhi)

theorem isFinite_of_magUnits_le (hhi : hi < 2 ^ 53) (h : magUnits a ≤ hi * unitsPerOne) : isFinite a = true := by
  rw [magUnits_eq, ← magOf_magBits_f64 hhi, magOf_le_iff] at h
  exact (isFinite_iff a).2 (h.trans_lt (magBits_f64_lt hhi))

theorem inRange_of_ge64 (hhi : hi < 2 ^ 53) (hs : signBit a = false) (h : ge64 (f64 hi) a = true) : InRange 0 hi a := by
  rw [f64_ge64_iff (isNaN_of_ge64 h).2 hhi, valueUnits_nonneg hs, ← magUnits_eq] at h
  have hle : magUnits a ≤ hi * unitsPerOne := mod_cast h
  exact ⟨hs, isFinite_of_magUnits_le hhi hle, by omega, hle⟩

/-- A range of one number has one value. -/
theorem InRange.eq_f64 (h : InRange lo lo a) (hlo : lo < 2 ^ 53) : a = f64 lo := by
  refine eq_of_sign_mag (h.sign.trans (f64_spec hlo).1.symm) (magOf_inj ?_)
  rw [magOf_magBits_f64 hlo, ← magUnits_eq]
  exact Nat.le_antisymm h.upper h.lower

/-! ### Rounding, sums and products -/

/-- Rounding stays between two natural numbers, since it keeps both. -/
theorem inRange_round {n d : Nat} (hd : 0 < d) (hlo : lo * unitsPerOne * d ≤ n) (hhi : n ≤ hi * unitsPerOne * d)
    (h : lo < 2 ^ 53) (h' : hi < 2 ^ 53) : InRange lo hi (packBits false (roundBits n d)) := by
  have hb := roundBits_lt n d
  have hge : magBits (f64 lo) ≤ roundBits n d :=
    roundBits_ge hd (magBits_f64_lt h).le (by simpa only [magOf_magBits_f64 h] using hlo)
  have hle : roundBits n d ≤ magBits (f64 hi) :=
    roundBits_le hd (magBits_f64_lt h').le (by simpa only [magOf_magBits_f64 h'] using hhi)
  have hlower : lo * unitsPerOne ≤ magUnits (packBits false (roundBits n d)) := by
    simpa only [magUnits_eq, magBits_packBits _ hb, ← magOf_magBits_f64 h, magOf_le_iff] using hge
  have hupper : magUnits (packBits false (roundBits n d)) ≤ hi * unitsPerOne := by
    simpa only [magUnits_eq, magBits_packBits _ hb, ← magOf_magBits_f64 h', magOf_le_iff] using hle
  exact ⟨signBit_packBits _ hb, isFinite_of_magUnits_le h' hupper, hlower, hupper⟩

theorem InRange.mul (ha : InRange lo hi a) (hb : InRange lo' hi' b) (h : lo * lo' < 2 ^ 53) (h' : hi * hi' < 2 ^ 53) :
    InRange (lo * lo') (hi * hi') (mul64 a b) := by
  have heq : mul64 a b = packBits false (roundBits (magUnits a * magUnits b) unitsPerOne) := by
    simp [mul64, ha.not_nan, hb.not_nan, ha.not_inf, hb.not_inf, ha.sign, hb.sign]
  rw [heq]
  refine inRange_round unitsPerOne_pos ?_ ?_ h h'
  · calc lo * lo' * unitsPerOne * unitsPerOne = lo * unitsPerOne * (lo' * unitsPerOne) := by ring
      _ ≤ magUnits a * magUnits b := Nat.mul_le_mul ha.lower hb.lower
  · calc magUnits a * magUnits b ≤ hi * unitsPerOne * (hi' * unitsPerOne) := Nat.mul_le_mul ha.upper hb.upper
      _ = hi * hi' * unitsPerOne * unitsPerOne := by ring

/-- A sum of two non-negative values is its rounded magnitude, a zero one too. -/
theorem roundSum_nonneg (n : Nat) : roundSum n false = packBits false (roundBits n 1) := by
  by_cases hn : n = 0
  · subst hn
    decide +kernel
  · have hpos : ¬ (n : Int) < 0 := by omega
    simp [roundSum, hn, hpos]

theorem InRange.add (ha : InRange lo hi a) (hb : InRange lo' hi' b) (h : lo + lo' < 2 ^ 53) (h' : hi + hi' < 2 ^ 53) :
    InRange (lo + lo') (hi + hi') (add64 a b) := by
  have heq : add64 a b = packBits false (roundBits (magUnits a + magUnits b) 1) := by
    rw [← roundSum_nonneg]
    simp [add64, ha.not_nan, hb.not_nan, ha.not_inf, hb.not_inf, ha.sign, hb.sign, ha.valueUnits_eq, hb.valueUnits_eq]
  rw [heq]
  refine inRange_round Nat.one_pos ?_ ?_ h h'
  · rw [Nat.mul_one, Nat.add_mul]
    exact Nat.add_le_add ha.lower hb.lower
  · rw [Nat.mul_one, Nat.add_mul]
    exact Nat.add_le_add ha.upper hb.upper

end

end Sys2Proof.ThresholdProofs
end

section
/-! SUPPORT. The threshold modulator (spec/40_threshold.md): the noise residue (R82), the range of the threshold (R83, R84),
the clamp and its index (R81), and the decision (R85, R86). -/

namespace Sys2Proof.ThresholdProofs

open Machine Laws

/-! ### The noise residue (R82) -/

theorem noiseResidue_lt (n : Pix) : noiseResidue n < 128 := Nat.mod_lt _ (by decide)

/-- Settles O36: the residue is the number of the low seven bits, and the bit above them is worth 128. -/
theorem noiseResidueByCases : Obligations.NoiseResidueByCases := by
  unfold Obligations.NoiseResidueByCases noiseResidue
  intro n
  have hn := n.isLt
  have hbits : (n.extractLsb' 0 7).toNat = n.toNat % 128 := by simp [BitVec.extractLsb'_toNat]
  have h127 : n = 127 ↔ n.toNat = 127 := BitVec.toNat_inj.symm
  have h255 : n = 255 ↔ n.toNat = 255 := BitVec.toNat_inj.symm
  rw [h127, h255]
  refine ⟨hbits.symm, ?_, ?_, ?_, ?_⟩ <;> omega

/-! ### The range of the threshold (R83) -/

/-- The entries R103 allows. -/
theorem inRange_of_legalStrength {m : F64} (h : legalStrength m = true) : InRange 0 1 m := by
  obtain ⟨hs, -, hle⟩ := (legalStrength_iff m).1 h
  exact inRange_of_ge64 (by decide) hs (f64_one ▸ hle)

/-- m is between 0 and k, since the strength is between 0 and 1. -/
theorem inRange_modulation {m : F64} (n : Pix) (h : legalStrength m = true) :
    InRange 0 (noiseResidue n) (mul64 (f64 (noiseResidue n)) m) := by
  have hk := noiseResidue_lt n
  simpa using (inRange_f64 (by omega)).mul (inRange_of_legalStrength h) (by omega) (by omega)

/-- thr is between 128 and 128 + k. -/
theorem inRange_thresholdOf {m : F64} (n : Pix) (h : legalStrength m = true) :
    InRange 128 (128 + noiseResidue n) (thresholdOf m n) := by
  have hk := noiseResidue_lt n
  rw [thresholdOf, ← f64_128]
  exact (inRange_f64 (by decide)).add (inRange_modulation n h) (by decide) (by omega)

theorem inRange_thresholdOf_255 {m : F64} (n : Pix) (h : legalStrength m = true) : InRange 128 255 (thresholdOf m n) :=
  (inRange_thresholdOf n h).mono le_rfl (by have := noiseResidue_lt n; omega)

/-- Settles O38: the bounds of m and thr for k <= 127. -/
theorem thresholdStaysInRange : Obligations.ThresholdStaysInRange := by
  unfold Obligations.ThresholdStaysInRange
  intro m n h
  have hm := (inRange_modulation n h).mono le_rfl (Nat.le_of_lt_succ (noiseResidue_lt n))
  have ht := inRange_thresholdOf_255 n h
  have hm0 := hm.ge64_lower (by decide)
  rw [f64_zero] at hm0
  exact ⟨hm0, hm.ge64_upper (by decide), ht.ge64_lower (by decide), ht.ge64_upper (by decide)⟩

/-- Every entry of the modulation ROM is one that R103 allows. -/
theorem legalStrength_modRead (roms : Roms) (i : Pix) : legalStrength (modRead roms i) = true := by
  have h := roms.legal
  simp only [Tables.legal, Bool.and_eq_true, List.all_eq_true] at h
  obtain ⟨-, hstrength⟩ := h
  exact hstrength _ (List.getElem_mem _)

theorem inRange_thresholdAt (roms : Roms) (x : F64) (n : Pix) : InRange 128 255 (thresholdAt roms x n) :=
  inRange_thresholdOf_255 n (legalStrength_modRead _ _)

/-- With residue 0 the range of the threshold is the one number 128 (R84). -/
theorem thresholdAt_of_noiseResidue_eq_zero (roms : Roms) (x : F64) {n : Pix} (h : noiseResidue n = 0) :
    thresholdAt roms x n = f64 128 := by
  have ht := inRange_thresholdOf n (legalStrength_modRead roms (levelIndex x))
  rw [h] at ht
  exact ht.eq_f64 (by decide)

/-! ### The clamp and the index (R81) -/

section
variable {a b x : F64}

theorem isNaN_max64 (ha : isNaN a = false) (hb : isNaN b = false) : isNaN (max64 a b) = false := by
  unfold max64
  split <;> assumption

theorem isNaN_min64 (ha : isNaN a = false) (hb : isNaN b = false) : isNaN (min64 a b) = false := by
  unfold min64
  split <;> assumption

theorem valueUnits_max64 (ha : isNaN a = false) (hb : isNaN b = false) :
    valueUnits (max64 a b) = max (valueUnits a) (valueUnits b) := by
  unfold max64
  split
  next h => exact (max_eq_left ((ge64_iff ha hb).1 h)).symm
  next h => rw [ge64_iff ha hb] at h; omega

theorem valueUnits_min64 (ha : isNaN a = false) (hb : isNaN b = false) :
    valueUnits (min64 a b) = min (valueUnits a) (valueUnits b) := by
  unfold min64
  split
  next h => exact (min_eq_right ((ge64_iff ha hb).1 h)).symm
  next h => rw [ge64_iff ha hb] at h; omega

theorem isNaN_clampLevel (hx : isNaN x = false) : isNaN (clampLevel x) = false :=
  isNaN_min64 (isNaN_max64 hx isNaN_posZero) isNaN_val255

/-- The clamp on values (R80 step 1). -/
theorem valueUnits_clampLevel (hx : isNaN x = false) :
    valueUnits (clampLevel x) = min (max (valueUnits x) 0) (255 * unitsPerOne) := by
  rw [clampLevel, valueUnits_min64 (isNaN_max64 hx isNaN_posZero) isNaN_val255,
    valueUnits_max64 hx isNaN_posZero, valueUnits_posZero, valueUnits_val255]

theorem floor64_eq (a : F64) : floor64 a = (valueUnits a).natAbs / unitsPerOne := by
  rw [floor64, natAbs_valueUnits, magUnits_eq]

/-- The clamped level has at most 255 for its integer part, so the index does not wrap. -/
theorem levelIndex_toNat (hx : isNaN x = false) :
    (levelIndex x).toNat = (valueUnits (clampLevel x)).toNat / unitsPerOne := by
  have hc := valueUnits_clampLevel hx
  have habs : (valueUnits (clampLevel x)).natAbs = (valueUnits (clampLevel x)).toNat := by omega
  have hle : (valueUnits (clampLevel x)).toNat / unitsPerOne ≤ 255 := Nat.div_le_of_le_mul (by omega)
  rw [levelIndex, floor64_eq, habs, BitVec.toNat_ofNat, Nat.mod_eq_of_lt (by omega)]

/-- Below 0.0 the index is 0. -/
theorem levelIndex_of_neg (hx : isNaN x = false) (h : valueUnits x < 0) : levelIndex x = 0 := by
  have hc : valueUnits (clampLevel x) = 0 := by
    rw [valueUnits_clampLevel hx]
    omega
  apply BitVec.eq_of_toNat_eq
  rw [levelIndex_toNat hx, hc, Int.toNat_zero, Nat.zero_div]
  rfl

/-- From 255.0 on the index is 255. -/
theorem levelIndex_of_ge (hx : isNaN x = false) (h : 255 * (unitsPerOne : Int) ≤ valueUnits x) : levelIndex x = 255 := by
  have hc : (valueUnits (clampLevel x)).toNat = 255 * unitsPerOne := by
    rw [valueUnits_clampLevel hx]
    omega
  apply BitVec.eq_of_toNat_eq
  rw [levelIndex_toNat hx, hc, Nat.mul_div_cancel _ unitsPerOne_pos]
  rfl

/-- In between the index is the integer part of the level. -/
theorem levelIndex_toNat_of_inside (hx : isNaN x = false) (h0 : 0 ≤ valueUnits x)
    (h255 : valueUnits x ≤ 255 * (unitsPerOne : Int)) : (levelIndex x).toNat = (valueUnits x).toNat / unitsPerOne := by
  rw [levelIndex_toNat hx, valueUnits_clampLevel hx, max_eq_left h0, min_eq_left h255]

end

/-- Settles O37: the three ranges of the level, the bounds of the integer part in the middle one. -/
theorem indexIsTheFlooredClampedLevel : Obligations.IndexIsTheFlooredClampedLevel := by
  unfold Obligations.IndexIsTheFlooredClampedLevel
  intro x hfin
  have hx := isNaN_of_finite hfin
  have hzero : ge64 x 0x0000000000000000#64 = true ↔ 0 ≤ valueUnits x := by
    rw [← valueUnits_posZero]
    exact ge64_iff hx isNaN_posZero
  have h255 : ge64 x 0x406FE00000000000#64 = true ↔ 255 * (unitsPerOne : Int) ≤ valueUnits x := by
    rw [← valueUnits_val255]
    exact ge64_iff hx isNaN_val255
  simp only [← Bool.not_eq_true, hzero, h255, not_le]
  refine ⟨levelIndex_of_neg hx, levelIndex_of_ge hx, fun hlo hhi => ?_⟩
  have hlt := (levelIndex x).isLt
  rw [ge64_f64_iff hx (by omega), ge64_f64_iff hx (by omega), levelIndex_toNat_of_inside hx hlo hhi.le]
  obtain ⟨v, hv⟩ := Int.eq_ofNat_of_zero_le hlo
  have hfloor : v / unitsPerOne * unitsPerOne ≤ v := Nat.div_mul_le_self v unitsPerOne
  have hnext : v < (v / unitsPerOne + 1) * unitsPerOne :=
    (Nat.div_lt_iff_lt_mul unitsPerOne_pos).1 (Nat.lt_succ_self _)
  rw [hv, Int.toNat_natCast]
  exact ⟨mod_cast hfloor, mod_cast hnext.not_ge⟩

/-! ### The decision (R85, R86) -/

/-- Against a threshold from 128 to 255 the clamped level compares as the level does. -/
theorem ge64_clampLevel {x thr : F64} (hx : isNaN x = false) (ht : InRange 128 255 thr) :
    ge64 (clampLevel x) thr = ge64 x thr := by
  have hlo := ht.le_valueUnits
  have hhi := ht.valueUnits_le
  have hu := unitsPerOne_pos
  rw [Bool.eq_iff_iff, ge64_iff (isNaN_clampLevel hx) ht.not_nan, ge64_iff hx ht.not_nan, valueUnits_clampLevel hx]
  omega

theorem thresh_eq (roms : Roms) {x : F64} (n : Pix) (hx : isFinite x = true) :
    thresh roms x n = if ge64 x (thresholdAt roms x n) then 255 else 0 := by
  rw [thresh, ge64_clampLevel (isNaN_of_finite hx) (inRange_thresholdAt roms x n)]

/-- Settles O40: the threshold lies between 128 and 255. -/
theorem clampDoesNotChangeTheDecision : Obligations.ClampDoesNotChangeTheDecision := by
  unfold Obligations.ClampDoesNotChangeTheDecision
  exact fun roms _ n hx => thresh_eq roms n hx

theorem thresh_eq_255_iff (roms : Roms) {x : F64} (n : Pix) (hx : isFinite x = true) :
    thresh roms x n = 255 ↔ ge64 x (thresholdAt roms x n) = true := by
  simp [thresh_eq roms n hx]

/-- Settles O39: 0 and 128 are noise values of residue 0. -/
theorem zeroResidueIgnoresTheTable : Obligations.ZeroResidueIgnoresTheTable := by
  unfold Obligations.ZeroResidueIgnoresTheTable
  intro roms x n hx hn
  have hthr : thresholdAt roms x n = f64 128 := by
    refine thresholdAt_of_noiseResidue_eq_zero roms x ?_
    rcases hn with rfl | rfl <;> rfl
  exact ⟨hthr, by rw [thresh_eq_255_iff roms n hx, hthr]⟩

theorem thresh_cases (roms : Roms) (x : F64) (n : Pix) : thresh roms x n = 0 ∨ thresh roms x n = 255 := by
  unfold thresh
  split
  · exact .inr rfl
  · exact .inl rfl

theorem ge64_trans {a b c : F64} (hab : ge64 a b = true) (hbc : ge64 b c = true) : ge64 a c = true := by
  obtain ⟨ha, hb⟩ := isNaN_of_ge64 hab
  obtain ⟨-, hc⟩ := isNaN_of_ge64 hbc
  rw [ge64_iff ha hb] at hab
  rw [ge64_iff hb hc] at hbc
  exact (ge64_iff ha hc).2 (hbc.trans hab)

/-- Settles O41: a level that reaches the threshold reaches 128.0, and one that reaches 255.0 reaches the threshold. -/
theorem tableIndependentDecisions : Obligations.TableIndependentDecisions := by
  unfold Obligations.TableIndependentDecisions
  intro roms x n hx
  have ht := inRange_thresholdAt roms x n
  refine ⟨thresh_cases roms x n, fun hlow => ?_, fun hhigh => ?_⟩
  · refine (thresh_cases roms x n).resolve_right fun h => ?_
    have hreach := ge64_trans ((thresh_eq_255_iff roms n hx).1 h) (ht.ge64_lower (by decide))
    rw [hlow] at hreach
    cases hreach
  · exact (thresh_eq_255_iff roms n hx).2 (ge64_trans hhigh (ht.ge64_upper (by decide)))

/-! ### The worked examples (R80, R105) -/

theorem modRead_eq_of_getElem? {roms : Roms} {i : Pix} {m : F64} (h : roms.tables.strength[i.toNat]? = some m) :
    modRead roms i = m :=
  (List.getElem?_eq_some_iff.1 h).2

theorem coefRead_eq_of_getElem? {roms : Roms} {i : Pix} {row : CoefRow} (h : roms.tables.coef[i.toNat]? = some row) :
    coefRead roms i = row :=
  (List.getElem?_eq_some_iff.1 h).2

/-- A level that is a natural number up to 255 is its own index. -/
theorem levelIndex_f64 (i : Pix) : levelIndex (f64 i.toNat) = i := by
  have hi := i.isLt
  have hr : InRange 0 255 (f64 i.toNat) := (inRange_f64 (by omega)).mono (Nat.zero_le _) (by omega)
  apply BitVec.eq_of_toNat_eq
  rw [levelIndex_toNat_of_inside hr.not_nan ((Int.natCast_nonneg _).trans_eq hr.valueUnits_eq.symm)
    hr.valueUnits_le, hr.valueUnits_eq, Int.toNat_natCast, (f64_spec (by omega)).2.2, Nat.mul_div_cancel _ unitsPerOne_pos]

/-- Settles O42: the examples follow from the entry 0.34 of both, the formula and the decision. -/
theorem sourceThresholdExamples : Obligations.SourceThresholdExamples := by
  unfold Obligations.SourceThresholdExamples
  refine ⟨fun roms x n => by rw [f64_128]; rfl, fun roms hsrc => ?_⟩
  obtain ⟨hcoef, h200, h50⟩ := hsrc
  have i200 : levelIndex (f64 200) = 200 := levelIndex_f64 200
  have i50 : levelIndex (f64 50) = 50 := levelIndex_f64 50
  have m200 : modRead roms 200 = 0x3FD5C28F5C28F5C3#64 := modRead_eq_of_getElem? h200
  have m50 : modRead roms 50 = 0x3FD5C28F5C28F5C3#64 := modRead_eq_of_getElem? h50
  have t200 : thresholdAt roms (f64 200) 10 = 0x40606CCCCCCCCCCD#64 := by
    rw [thresholdAt, i200, m200]
    decide +kernel
  have t50 : thresholdAt roms (f64 50) 200 = 0x40630F5C28F5C28F#64 := by
    rw [thresholdAt, i50, m50]
    decide +kernel
  refine ⟨⟨i200, ?_, t200, ?_⟩, ⟨i50, ?_, t50, ?_⟩, coefRead_eq_of_getElem? hcoef⟩
  · rw [i200, m200]
    decide +kernel
  · rw [thresh_eq roms 10 (f64_spec (by decide)).2.1, t200]
    decide +kernel
  · rw [i50, m50]
    decide +kernel
  · rw [thresh_eq roms 200 (f64_spec (by decide)).2.1, t50]
    decide +kernel

end Sys2Proof.ThresholdProofs
end

section
/-! SUPPORT. The error accumulator (spec/41_error_distributor.md): the residual (R92), the terms (R90, R94), the sums (R94),
and the accesses of its additions (R93). -/

namespace Sys2Proof.DistributorProofs

open Machine Laws StateProofs ThresholdProofs

/-! ### Products and quotients with a natural number -/

theorem roundBits_zero {d : Nat} (hd : 0 < d) : roundBits 0 d = 0 := by
  simpa [magOf_zero] using roundBits_exact (b := 0) hd (Nat.zero_le _)

section
variable {a diff : F64} {n w csum : Nat}

theorem isZero_f64 (hn : 0 < n) (hlt : n < 2 ^ 53) : isZero (f64 n) = false := by
  rw [← Bool.not_eq_true, isZero_iff, ← magOf_eq_zero, magOf_magBits_f64 hlt]
  exact (Nat.mul_pos hn unitsPerOne_pos).ne'

/-- The product with a natural number is the rounded magnitude under the sign of the other factor. -/
theorem mul64_f64 (ha : isFinite a = true) (hn : n < 2 ^ 53) :
    mul64 a (f64 n) = packBits (signBit a) (roundBits (magUnits a * (n * unitsPerOne)) unitsPerOne) := by
  obtain ⟨hs, hf, hm⟩ := f64_spec hn
  simp [mul64, isNaN_of_finite ha, isInf_of_finite ha, isNaN_of_finite hf, isInf_of_finite hf, hs, hm]

/-- The quotient by a natural number that is not 0 has the sign of the dividend and is no NaN, and a dividend of 0 gives a
quotient of 0. -/
theorem div64_f64 (ha : isNaN a = false) (hpos : 0 < n) (hn : n < 2 ^ 53) :
    ∃ q ≤ infBits, div64 a (f64 n) = packBits (signBit a) q ∧ (magBits a = 0 → q = 0) := by
  obtain ⟨hs, hf, hm⟩ := f64_spec hn
  have hz := isZero_f64 hpos hn
  cases hinf : isInf a with
  | true =>
    refine ⟨infBits, le_rfl, ?_, fun h0 => ?_⟩
    · simp [div64, ha, hinf, isNaN_of_finite hf, isInf_of_finite hf, hz, hs, infinity]
    · exact absurd (h0.symm.trans ((isInf_iff a).1 hinf)) (by decide)
  | false =>
    refine ⟨_, roundBits_le_inf (magUnits a * unitsPerOne) (n * unitsPerOne), ?_, fun h0 => ?_⟩
    · simp [div64, ha, hinf, isNaN_of_finite hf, isInf_of_finite hf, hz, hs, hm]
    · rw [magUnits_eq, h0, magOf_zero, Nat.zero_mul, roundBits_zero (Nat.mul_pos hpos unitsPerOne_pos)]

/-! ### The terms (R90, R94) -/

/-- A term is the residual's sign on a magnitude up to infinity, and that magnitude is 0 where the weight or the residual
is. -/
theorem weightedTerm_spec (hd : isFinite diff = true) (hw : w < 2 ^ 53) (hpos : 0 < csum) (hc : csum < 2 ^ 53) :
    ∃ q ≤ infBits, weightedTerm diff w csum = packBits (signBit diff) q ∧ (w = 0 ∨ magBits diff = 0 → q = 0) := by
  have hlt := roundBits_lt (magUnits diff * (w * unitsPerOne)) unitsPerOne
  have hprod := mul64_f64 hd hw
  have hsign : signBit (mul64 diff (f64 w)) = signBit diff := by rw [hprod, signBit_packBits _ hlt]
  have hnan : isNaN (mul64 diff (f64 w)) = false := by
    rw [← Bool.not_eq_true, isNaN_iff, hprod, magBits_packBits _ hlt]
    exact (roundBits_le_inf _ _).not_gt
  obtain ⟨q, hq, heq, hzero⟩ := div64_f64 hnan hpos hc
  refine ⟨q, hq, hsign ▸ heq, fun h => hzero ?_⟩
  have hmag : magUnits diff * (w * unitsPerOne) = 0 := by
    rcases h with rfl | h
    · simp
    · rw [magUnits_eq, h, magOf_zero, Nat.zero_mul]
  rw [hprod, magBits_packBits _ hlt, hmag, roundBits_zero unitsPerOne_pos]

end

/-- What R102 says of the fields of a record. -/
theorem coefRow_legal_iff {bits : Nat} {row : CoefRow} :
    row.legal bits = true ↔ 1 ≤ row.csum ∧ row.cr + row.cdl + row.cd ≤ row.csum
      ∧ ∀ field ∈ [row.cr, row.cdl, row.cd, row.csum], field < 2 ^ 53 ∧ field < 2 ^ bits := by
  simp [CoefRow.legal, and_assoc]

/-- The terms of a legal record. -/
theorem weightedTerm_of_legal {bits : Nat} {row : CoefRow} {diff : F64} {w : Nat} (h : row.legal bits = true)
    (hd : isFinite diff = true) (hw : w ∈ [row.cr, row.cdl, row.cd]) :
    ∃ q ≤ infBits, weightedTerm diff w row.csum = packBits (signBit diff) q ∧ (w = 0 ∨ magBits diff = 0 → q = 0) := by
  obtain ⟨hpos, -, hfields⟩ := coefRow_legal_iff.1 h
  exact weightedTerm_spec hd (hfields w (List.mem_append_left [row.csum] hw)).1 hpos (hfields row.csum (by simp)).1

/-- Settles O45: sign, magnitude up to infinity, and magnitude 0 for weight 0. -/
theorem termsTakeTheSignOfTheResidual : Obligations.TermsTakeTheSignOfTheResidual := by
  unfold Obligations.TermsTakeTheSignOfTheResidual
  intro bits row diff h hd w hw
  obtain ⟨q, hq, heq, hzero⟩ := weightedTerm_of_legal h hd (w := w) (by simpa using hw)
  have hlt := hq.trans_lt infBits_lt
  rw [heq, signBit_packBits _ hlt, ← Bool.not_eq_true, isNaN_iff, isZero_iff, magBits_packBits _ hlt]
  exact ⟨rfl, hq.not_gt, fun h0 => hzero (.inl h0)⟩

/-- Settles O44: each magnitude is 0, and the sign is that of +0.0. -/
theorem zeroResidualGivesZeroTerms : Obligations.ZeroResidualGivesZeroTerms := by
  unfold Obligations.ZeroResidualGivesZeroTerms
  intro bits row h
  obtain ⟨hsign, hmag, hfin⟩ := posZero_facts
  have hterm : ∀ w ∈ [row.cr, row.cdl, row.cd], weightedTerm posZero w row.csum = posZero := fun w hw => by
    obtain ⟨q, -, heq, hzero⟩ := weightedTerm_of_legal h hfin hw
    rw [heq, hzero (.inr hmag), ← hmag, packBits_self]
  rw [termsOf, hterm row.cr (by simp), hterm row.cdl (by simp), hterm row.cd (by simp)]

/-! ### The residual (R92) -/

/-- Settles O43: the exact difference is the level itself, which rounding keeps; a level of -0.0 keeps its sign. -/
theorem zeroOutputKeepsTheResidual : Obligations.ZeroOutputKeepsTheResidual := by
  unfold Obligations.ZeroOutputKeepsTheResidual
  intro x hx
  obtain ⟨hsign, -, hfin⟩ := posZero_facts
  have hsub : residualOf x 0 = roundSum (valueUnits x) (signBit x) := by
    rw [residualOf, f64_zero]
    simp [sub64, isNaN_of_finite hx, isInf_of_finite hx, isNaN_of_finite hfin, isInf_of_finite hfin, hsign,
      valueUnits_posZero]
  rw [hsub, roundSum_exact hx fun _ => rfl]

/-! ### The sums (R94) -/

theorem isFinite_of_isZero {z : F64} (hz : isZero z = true) : isFinite z = true := by
  rw [isFinite_iff, (isZero_iff z).1 hz]
  decide

theorem isFinite_of_not_nan_inf {v : F64} (hn : isNaN v = false) (hi : isInf v = false) : isFinite v = true := by
  rw [← Bool.not_eq_true, isNaN_iff] at hn
  rw [← Bool.not_eq_true, isInf_iff] at hi
  rw [isFinite_iff]
  omega

/-- A zero that is not -0.0 is +0.0. -/
theorem signBit_of_magBits_eq_zero {v : F64} (hv : v ≠ negZero) (h0 : magBits v = 0) : signBit v = false := by
  rw [← Bool.not_eq_true]
  exact fun hs => hv ((negZero_iff v).2 ⟨hs, h0⟩)

/-- Settles O46: an infinity stays, and of a finite value the exact sum is the value itself, which rounding keeps. -/
theorem zeroTermLeavesTheCell : Obligations.ZeroTermLeavesTheCell := by
  unfold Obligations.ZeroTermLeavesTheCell
  intro v z hn hv hz
  have hzn := isNaN_of_finite (isFinite_of_isZero hz)
  have hzi := isInf_of_finite (isFinite_of_isZero hz)
  cases hi : isInf v with
  | true => simp [add64, hn, hzn, hi, hzi]
  | false =>
    have hadd : add64 v z = roundSum (valueUnits v) (signBit v && signBit z) := by
      simp [add64, hn, hzn, hi, hzi, valueUnits_eq_zero.2 ((isZero_iff z).1 hz)]
    rw [hadd, roundSum_exact (isFinite_of_not_nan_inf hn hi)]
    exact fun h0 => by rw [signBit_of_magBits_eq_zero hv h0, Bool.false_and]

/-- Settles O47: a NaN, an infinity and a rounded sum are none of them -0.0. -/
theorem sumsAreNeverNegativeZero : Obligations.SumsAreNeverNegativeZero := by
  unfold Obligations.SumsAreNeverNegativeZero
  exact fun v t hv => add64_ne_negZero t hv

/-! ### The accesses of a PIXEL (R93) -/

theorem addAccesses_append (adds adds' : List (ErrAddr × F64)) (m : Memory) :
    addAccesses (adds ++ adds') m = addAccesses adds m ++ addAccesses adds' (addMemory adds m) := by
  induction adds generalizing m with
  | nil => rfl
  | cons x rest ih => exact congrArg (_ :: _ :: ·) (ih _)

/-- An addition under a condition is, under that condition, the read and the write of its target. -/
theorem addAccesses_ite (q : Prop) [Decidable q] (a : ErrAddr) (t : F64) (m : Memory) :
    addAccesses (if q then [(a, t)] else []) m =
      if q then [.read a, .write a (add64 (m.readWord a) t)] else [] := by
  split <;> rfl

/-- A PIXEL that completes, or waits for its beat, has read its cell and made its additions. -/
theorem errTrace_of_pixel {s t : State} {p n : Pix} (hs : s.regs.state = .run) (h : exec (.pixel p n) s = .next t)
    (ht : t.regs.state ≠ .error) :
    t.errTrace = s.errTrace ++ .read (currentCell s) :: addAccesses (pixelAdds p n (levelNow p s) s) s.err := by
  rcases execPixel_cases p n s with ⟨he, _⟩ | ⟨he, _⟩ | ⟨_, _, e⟩ | ⟨_, _, _, e⟩ | ⟨_, _, _, e⟩
  · simp [hs] at he
  · simp [hs] at he
  all_goals cases e.symm.trans h
  · exact absurd rfl ht
  · rfl
  · rfl

/-- Settles O33: the written values are the sums, each from the memory the additions before it leave. -/
theorem droppedTermsIssueNoAccess : Obligations.DroppedTermsIssueNoAccess := by
  unfold Obligations.DroppedTermsIssueNoAccess
  intro s t p n hs h ht
  rw [errTrace_of_pixel hs h ht, pixelAdds, additions, addAccesses_append, addAccesses_append, addAccesses_ite,
    addAccesses_ite, addAccesses_ite, List.append_cons]
  simp only [← List.append_assoc]
  exact ⟨_, _, _, rfl⟩

/-! ### The worked examples (R90, R95) -/

/-- Pixel (0, 0) of a 2 by 2 frame has no down-left cell. -/
theorem additions_two_by_two (t : Terms) : additions 2 2 0 0 t = [(1, t.right), (3, t.down)] := rfl

/-- R90's example: the residual 18.0 under the record (13, 0, 5, 18). -/
theorem termsOf_source_18 : termsOf ⟨13, 0, 5, 18⟩ 0x4032000000000000#64 =
    ⟨0x402A000000000000#64, 0x0000000000000000#64, 0x4014000000000000#64⟩ := by decide +kernel

/-- Vector D5. -/
theorem termsOf_d5 : termsOf ⟨13, 0, 5, 18⟩ 0xC06B6C34DE09E924#64 =
    ⟨0xC063CE262E956144#64, 0x8000000000000000#64, 0xC04E783ABDD21F7C#64⟩ := by decide +kernel

/-- In the 2 by 2 frame the terms of R90's example go to the words 1 and 3. -/
theorem distrib_source_18 {s : State} (hsrc : s.roms.SourceEntries) (hw : s.regs.width = 2) (hh : s.regs.height = 2) :
    (distrib 0x4032000000000000#64 0 0 0 s).err =
      addMemory [(1, 0x402A000000000000#64), (3, 0x4014000000000000#64)] s.err := by
  obtain ⟨hcoef, -, -⟩ := hsrc
  have hrow : coefRead s.roms 0 = ⟨13, 0, 5, 18⟩ := coefRead_eq_of_getElem? hcoef
  rw [distrib, addAll_err, hrow, hw, hh, termsOf_source_18]
  exact congrArg (addMemory · s.err) (additions_two_by_two _)

/-- Settles O48: the formula and the targets by definition, R90's example on the memory by what a run of ErrAdds leaves,
and the vectors by evaluation. -/
theorem conservationIsNotExactInBinary64 : Obligations.ConservationIsNotExactInBinary64 := by
  unfold Obligations.ConservationIsNotExactInBinary64
  refine ⟨fun _ _ => ⟨rfl, rfl, rfl⟩, fun _ => rfl, by decide +kernel, fun s hsrc hw hh => ?_, ?_⟩
  · dsimp only
    rw [distrib_source_18 hsrc hw hh]
    refine ⟨readWord_addMemory_mem _ _ (by decide) (by simp), readWord_addMemory_mem _ _ (by decide) (by simp),
      fun a h1 h3 => readWord_addMemory_ne _ _ _ ?_⟩
    simpa [eq_comm] using And.intro h1 h3
  · dsimp only
    rw [termsOf_d5]
    exact ⟨rfl, rfl, rfl, by decide +kernel, by decide +kernel⟩

end Sys2Proof.DistributorProofs
end

section
/-! SUPPORT. The two tables (spec/42_tables.md): no event writes them (R107, R30), and the ROM words hold them exactly
(R100, R101, R106). -/

namespace Sys2Proof.TablesProofs

open Machine Laws StateProofs DistributorProofs

/-! ### The frame of every event (R107, R30) -/

theorem roms_of_wordEffect {cmd : Word} {s t : State} (e : WordEffect cmd s t) : t.roms = s.roms := by
  cases e with
  | unchanged | fault | nonfinite | setw | seth | start | pixel | held => rfl

theorem takeInput_roms {s t : State} {event : Input} (h : takeInput event s = .next t) : t.roms = s.roms := by
  cases event with
  | command cmd => exact roms_of_wordEffect (.of_execWord h)
  | reset =>
    cases h
    exact resetBlock_roms s
  | resetDuring cmd kept b =>
    obtain ⟨u, -, rfl⟩ := execWordAbandoned_next h
    exact abandon_roms s u kept b
  | hostRead a => rw [hostRead_next h]
  | hostWrite a v =>
    obtain ⟨-, rfl⟩ := hostWrite_next h
    rfl
  | outReady ready =>
    cases h
    rcases setOutReady_cases ready s with ⟨-, e⟩ | ⟨b, -, -, e⟩ <;> rw [e]

/-- Settles O35: a waiting step changes nothing, and no event it can take writes the tables. -/
theorem tablesNeverChange : Obligations.TablesNeverChange := by
  unfold Obligations.TablesNeverChange
  intro s t h
  rcases step_next h with ⟨-, rfl⟩ | ⟨event, rest, -, ht⟩
  · rfl
  · exact takeInput_roms (s := { s with input := rest }) ht

/-! ### The lookups (R100, R101) -/

theorem getElem?_coef (roms : Roms) (i : Pix) : roms.tables.coef[i.toNat]? = some (coefRead roms i) :=
  List.getElem?_eq_getElem _

theorem getElem?_strength (roms : Roms) (i : Pix) : roms.tables.strength[i.toNat]? = some (modRead roms i) :=
  List.getElem?_eq_getElem _

/-- Every row of the coefficient ROM is one that R102 allows. -/
theorem legal_coefRead (roms : Roms) (i : Pix) : (coefRead roms i).legal roms.tables.coefBits = true := by
  have h := roms.legal
  simp only [Tables.legal, Bool.and_eq_true, List.all_eq_true] at h
  obtain ⟨⟨-, hcoef⟩, -⟩ := h
  exact hcoef _ (List.getElem_mem _)

/-! ### Packed fields (R106) -/

section
variable {k j : Nat} {fields : List Nat}

/-- Fields below 2^k are the digits of their packed number in base 2^k. -/
theorem ofDigits_div_mod_eq_getElem (hfields : ∀ f ∈ fields, f < 2 ^ k) (hj : j < fields.length) :
    Nat.ofDigits (2 ^ k) fields / 2 ^ (j * k) % 2 ^ k = fields[j] := by
  rw [Nat.mul_comm, pow_mul, Nat.ofDigits_div_pow_eq_ofDigits_drop j (Nat.two_pow_pos k) fields hfields,
    List.drop_eq_getElem_cons hj, Nat.ofDigits_cons, Nat.add_mul_mod_self_left,
    Nat.mod_eq_of_lt (hfields _ (List.getElem_mem hj))]

/-- A field that ends inside a word is read from the word's number as from the number it was made of. -/
theorem extractLsb'_ofNat_toNat {w lo : Nat} (n : Nat) (h : lo + k ≤ w) :
    ((BitVec.ofNat w n).extractLsb' lo k).toNat = n / 2 ^ lo % 2 ^ k := by
  obtain ⟨r, rfl⟩ := Nat.exists_eq_add_of_le h
  rw [BitVec.extractLsb'_toNat, BitVec.toNat_ofNat, Nat.shiftRight_eq_div_pow, Nat.add_assoc, Nat.pow_add,
    Nat.mod_mul_right_div_self, Nat.mod_mod_of_dvd _ (Nat.pow_dvd_pow 2 (Nat.le_add_right k r))]

/-- Field `j` of a word of packed fields. -/
theorem extractLsb'_ofDigits (hfields : ∀ f ∈ fields, f < 2 ^ k) (hj : j < fields.length) :
    ((BitVec.ofNat (fields.length * k) (Nat.ofDigits (2 ^ k) fields)).extractLsb' (j * k) k).toNat = fields[j] := by
  have hinside : j * k + k ≤ fields.length * k := Nat.succ_mul j k ▸ Nat.mul_le_mul_right k hj
  rw [extractLsb'_ofNat_toNat _ hinside, ofDigits_div_mod_eq_getElem hfields hj]

end

/-- The fields of a record from the lowest up, as R106 orders them. -/
def coefFields (row : CoefRow) : List Nat := [row.cr, row.cdl, row.cd, row.csum]

theorem coefFields_lt {bits : Nat} {row : CoefRow} (h : row.legal bits = true) : ∀ f ∈ coefFields row, f < 2 ^ bits := by
  obtain ⟨-, -, hfields⟩ := coefRow_legal_iff.1 h
  exact fun f hf => (hfields f hf).2

/-- A coefficient ROM word is its record's fields, packed. -/
theorem coefRomWord_eq (roms : Roms) (i : Pix) :
    coefRomWord roms i =
      BitVec.ofNat _ (Nat.ofDigits (2 ^ roms.tables.coefBits) (coefFields (coefRead roms i))) := by
  rw [coefRomWord]
  congr 1
  simp only [coefFields, Nat.ofDigits_cons, Nat.ofDigits_nil]
  ring

/-- The record that packed fields of a legal record hold is the record. -/
theorem coefRowOfRomWord_packed {bits : Nat} {row : CoefRow} (h : row.legal bits = true) :
    coefRowOfRomWord bits (BitVec.ofNat _ (Nat.ofDigits (2 ^ bits) (coefFields row))) = row := by
  have hfield (j : Nat) (hj : j < 4) := extractLsb'_ofDigits (coefFields_lt h) hj
  have hcr := hfield 0 (by decide)
  have hcdl := hfield 1 (by decide)
  rw [Nat.zero_mul] at hcr
  rw [Nat.one_mul] at hcdl
  obtain ⟨cr, cdl, cd, csum⟩ := row
  exact (CoefRow.mk.injEq ..).mpr ⟨hcr, hcdl, hfield 2 (by decide), hfield 3 (by decide)⟩

/-- Settles O52: the lookups by definition, and every field of a legal row fits the COEF_BITS it is stored in. -/
theorem romWordsHoldTheTables : Obligations.RomWordsHoldTheTables := by
  unfold Obligations.RomWordsHoldTheTables
  refine fun roms i => ⟨getElem?_coef roms i, getElem?_strength roms i, ?_, rfl⟩
  rw [coefRomWord_eq]
  exact coefRowOfRomWord_packed (legal_coefRead roms i)

end Sys2Proof.TablesProofs
end

section
/-! SUPPORT. What each command does in each state of the sequencer (spec/43_commands.md R110 to R119): where it is allowed it
completes, elsewhere it takes BAD_STATE, and a PIXEL with a non-finite level takes NONFINITE. -/

namespace Sys2Proof.CommandProofs

open Machine Laws StateProofs EncodingProofs MemoryProofs

/-! ### A command where it is allowed, and where it is not (R110) -/

section
variable {s : State}

theorem execSetw_of_outside (w : Dim) (hs : s.regs.state = .idle ∨ s.regs.state = .done) :
    execSetw w s = .next { s with regs := { s.regs with width := w } } := by
  have h := execSetw_cases w s
  rcases hs with hs | hs <;> simpa [hs] using h

theorem execSeth_of_outside (h : Dim) (hs : s.regs.state = .idle ∨ s.regs.state = .done) :
    execSeth h s = .next { s with regs := { s.regs with height := h } } := by
  have h' := execSeth_cases h s
  rcases hs with hs | hs <;> simpa [hs] using h'

theorem execStart_of_outside (hs : s.regs.state = .idle ∨ s.regs.state = .done) :
    execStart s = .next (startState s) := by
  have h := execStart_cases s
  rcases hs with hs | hs <;> simpa [hs] using h

theorem execSetw_of_run (w : Dim) (hs : s.regs.state = .run) :
    execSetw w s = .next (takeFault .badState (encode (.setw w)) s) := by
  simpa [hs] using execSetw_cases w s

theorem execSeth_of_run (h : Dim) (hs : s.regs.state = .run) :
    execSeth h s = .next (takeFault .badState (encode (.seth h)) s) := by
  simpa [hs] using execSeth_cases h s

theorem execStart_of_run (hs : s.regs.state = .run) : execStart s = .next (takeFault .badState (encode .start) s) := by
  simpa [hs] using execStart_cases s

theorem execPixel_of_outside (p n : Pix) (hs : s.regs.state = .idle ∨ s.regs.state = .done) :
    execPixel p n s = .next (takeFault .badState (encode (.pixel p n)) s) := by
  have h := execPixel_cases p n s
  rcases hs with hs | hs <;> simpa [hs] using h

theorem execPixel_of_nonfinite {p : Pix} (n : Pix) (hs : s.regs.state = .run) (hx : isFinite (levelNow p s) = false) :
    execPixel p n s = .next (takeFault .nonfinite (encode (.pixel p n)) (errRead (currentCell s) s).2) := by
  simpa [hs, hx] using execPixel_cases p n s

theorem execPixel_of_finite {p : Pix} (n : Pix) (hs : s.regs.state = .run) (hx : isFinite (levelNow p s) = true)
    (hr : s.outReady = true) : execPixel p n s = .next (pixelState p n s) := by
  simpa [hs, hx, hr] using execPixel_cases p n s

end

/-- Settles O22: NOP's word is 0, and a word of its opcode that is not 0 has reserved bits set. -/
theorem nopChangesNothing : Obligations.NopChangesNothing := by
  unfold Obligations.NopChangesNothing
  refine ⟨execNop_eq, rfl, fun cmd hop hne => (decode_eq_reservedField_iff cmd).2 (.inl ⟨.inl hop, fun h0 => hne ?_⟩)⟩
  exact BitVec.eq_of_toNat_eq (by rw [BitVec.toNat_ofNat]; omega)

/-- Settles O23: outside a frame both are allowed. -/
theorem setupWritesOneRegister : Obligations.SetupWritesOneRegister := by
  unfold Obligations.SetupWritesOneRegister
  exact fun s v hs => ⟨execSetw_of_outside v hs, execSeth_of_outside v hs⟩

/-- Settles O17: in RUN the three commands raise BAD_STATE, and outside a frame PIXEL does. -/
theorem badStateFault : Obligations.BadStateFault := by
  unfold Obligations.BadStateFault
  refine fun s => ⟨fun hs i hi => ?_, fun hs p n => execPixel_of_outside p n hs⟩
  rcases hi with ⟨w, rfl⟩ | ⟨h, rfl⟩ | rfl
  · exact execSetw_of_run w hs
  · exact execSeth_of_run h hs
  · exact execStart_of_run hs

/-- Settles O18: the level is the one the PIXEL reads, and the read is all the port shows. -/
theorem nonfiniteFault : Obligations.NonfiniteFault := by
  unfold Obligations.NonfiniteFault
  exact fun s p n hs hx => execPixel_of_nonfinite n hs hx

/-! ### START (R114, R115) -/

/-- The image cells read +0.0 after START. -/
theorem readWord_startState {s : State} {r c : Nat} (hr : r < s.regs.height.toNat) (hc : c < s.regs.width.toNat) :
    (startState s).err.readWord (cellAddr s.regs.width.toNat r c) = posZero :=
  (readWord_foldl_writeWord _ posZero s.err _).trans (if_pos (mem_imageCells.2 ⟨r, c, hr, hc, rfl⟩))

/-- Settles O24: the clearing writes go to the image cells, and `startRegs` are the registers of R114. -/
theorem startClearsTheImageCells : Obligations.StartClearsTheImageCells := by
  unfold Obligations.StartClearsTheImageCells
  refine fun s hs => ⟨startState s, execStart_of_outside hs, rfl, fun r c hr hc => readWord_startState hr hc,
    fun b hb => ?_, rfl, rfl, rfl, rfl, rfl, rfl, rfl⟩
  refine readByte_foldl_writeWord _ posZero s.err b fun a ha => ?_
  obtain ⟨r, c, hr, hc, rfl⟩ := mem_imageCells.1 ha
  exact hb r c hr hc

/-- A degenerate frame has no image cells. -/
theorem imageCells_degenerate {w h : Dim} (hz : w = 0 ∨ h = 0) : imageCells w.toNat h.toNat = [] := by
  rw [← List.length_eq_zero_iff, length_imageCells]
  rcases hz with rfl | rfl <;> simp

theorem startState_degenerate {s : State} (hz : s.regs.width = 0 ∨ s.regs.height = 0) :
    startState s = { s with
      regs := { s.regs with row := 0, col := 0, state := .done }
      frame := some ⟨s.regs.width, s.regs.height⟩ } := by
  rw [startState, startRegs, if_pos hz, imageCells_degenerate hz]
  simp

/-- Settles O25: with no image cells to clear START ends in DONE, where a PIXEL is not allowed. -/
theorem degenerateFrame : Obligations.DegenerateFrame := by
  unfold Obligations.DegenerateFrame
  exact fun s p n hs hz => ⟨_, _, execStart_of_outside hs, startState_degenerate hz,
    execPixel_of_outside p n (.inr (by rw [startState_degenerate hz])), rfl, rfl, rfl⟩

/-! ### PIXEL (R116, R117) -/

/-- Settles O26: the targets of a pixel are different words, so each holds its old value plus its one term. -/
theorem pixelCompletes : Obligations.PixelCompletes := by
  unfold Obligations.PixelCompletes
  rintro s p n x adds hs hr rfl hx rfl
  have hdistinct : ((pixelAdds p n (levelNow p s) s).map (·.1)).Nodup :=
    nodup_additions _ s.regs.width.isLt s.regs.height.isLt s.regs.row.isLt s.regs.col.isLt
  refine ⟨pixelState p n s, execPixel_of_finite n hs hx hr, rfl, fun a tm ha => ?_, fun b hb => ?_, rfl, rfl, rfl, rfl,
    hr, rfl⟩
  · exact readWord_addMemory_mem _ s.err hdistinct ha
  · exact readByte_addMemory _ s.err b fun y hy => hb y.1 y.2 hy

/-- From a position inside the frame the advance adds 1 to the position's number in raster order (R25). -/
theorem advanceRegs_rasterOrder {r : Regs} (hrow : r.row < r.height) (hcol : r.col < r.width) :
    (advanceRegs r).row.toNat * r.width.toNat + (advanceRegs r).col.toNat
      = r.row.toNat * r.width.toNat + r.col.toNat + 1 := by
  have hw := r.width.isLt
  have hh := r.height.isLt
  rw [BitVec.lt_def] at hrow hcol
  unfold advanceRegs
  split
  next hnext =>
    rw [BitVec.toNat_ofNat, Nat.mod_eq_of_lt (by omega), Nat.add_assoc]
  next hlast =>
    rw [BitVec.toNat_ofNat, Nat.mod_eq_of_lt (show r.row.toNat + 1 < 2 ^ 16 by omega), Nat.succ_mul]
    change r.row.toNat * r.width.toNat + r.width.toNat + 0 = _
    omega

/-- Settles O28: the raster number grows by 1, and the advance either stays inside the frame in RUN or ends it at (H, 0). -/
theorem positionAdvancesInRasterOrder : Obligations.PositionAdvancesInRasterOrder := by
  unfold Obligations.PositionAdvancesInRasterOrder
  intro s t p n hs hr hrow hcol h ht
  have hfinite : isFinite (levelNow p s) = true := by
    by_contra hx
    cases (execPixel_of_nonfinite n hs (Bool.eq_false_of_not_eq_true hx)).symm.trans h
    exact ht rfl
  cases (execPixel_of_finite n hs hfinite hr).symm.trans h
  refine ⟨advanceRegs_rasterOrder hrow hcol, ?_⟩
  simp only [pixelState, advanceRegs_width, advanceRegs_height, advanceRegs_cause, advanceRegs_errcmd]
  rcases advanceRegs_cases hs hrow hcol with ⟨hstate, hin, hin'⟩ | ⟨hstate, hend, hend'⟩
  · simp [hstate, hin, hin', BitVec.ne_of_lt hin]
  · simp [hstate, hend, hend']

/-! ### Every command has a next state (R119) -/

theorem exec_next (i : Instr) (s : State) : ∃ t, exec i s = .next t := by
  cases i with
  | nop => exact ⟨s, execNop_eq s⟩
  | setw w => rcases execSetw_cases w s with ⟨_, e⟩ | ⟨_, e⟩ | ⟨_, e⟩ <;> exact ⟨_, e⟩
  | seth h => rcases execSeth_cases h s with ⟨_, e⟩ | ⟨_, e⟩ | ⟨_, e⟩ <;> exact ⟨_, e⟩
  | start => rcases execStart_cases s with ⟨_, e⟩ | ⟨_, e⟩ | ⟨_, e⟩ <;> exact ⟨_, e⟩
  | pixel p n =>
    rcases execPixel_cases p n s with ⟨_, e⟩ | ⟨_, e⟩ | ⟨_, _, e⟩ | ⟨_, _, _, e⟩ | ⟨_, _, _, e⟩ <;> exact ⟨_, e⟩

section
variable {s t : State}

theorem setup_port_unchanged {i : Instr} (hi : i = .nop ∨ (∃ w, i = .setw w) ∨ ∃ h, i = .seth h)
    (h : exec i s = .next t) : t.errTrace = s.errTrace ∧ t.out = s.out := by
  rcases hi with rfl | ⟨w, rfl⟩ | ⟨v, rfl⟩
  · cases (execNop_eq s).symm.trans h
    exact ⟨rfl, rfl⟩
  · rcases execSetw_cases w s with ⟨_, e⟩ | ⟨_, e⟩ | ⟨_, e⟩ <;> cases e.symm.trans h <;> exact ⟨rfl, rfl⟩
  · rcases execSeth_cases v s with ⟨_, e⟩ | ⟨_, e⟩ | ⟨_, e⟩ <;> cases e.symm.trans h <;> exact ⟨rfl, rfl⟩

theorem issued_startState (s : State) :
    issued s (startState s) =
      (imageCells s.regs.width.toNat s.regs.height.toNat).map (fun a => .write a posZero) :=
  issued_of_append rfl

/-- A PIXEL reads its own cell, and adds at most three terms by two accesses each (R50). -/
theorem length_pixelAccesses_le (p n : Pix) (x : F64) (s : State) :
    (.read (currentCell s) :: addAccesses (pixelAdds p n x s) s.err : List ErrAccess).length ≤ 7 := by
  have hterms : (pixelAdds p n x s).length ≤ 3 := length_additions_le ..
  rw [List.length_cons, length_addAccesses]
  omega

theorem pixel_port_bounded {p n : Pix} (h : exec (.pixel p n) s = .next t) :
    (issued s t).length ≤ 7 ∧ t.out.length ≤ s.out.length + 1 := by
  rcases execPixel_cases p n s with ⟨_, e⟩ | ⟨_, e⟩ | ⟨_, _, e⟩ | ⟨_, _, _, e⟩ | ⟨_, _, _, e⟩ <;> cases e.symm.trans h
  · simp [issued]
  · simp [issued]
  · simp [issued]
  · exact ⟨(congrArg List.length (issued_of_append rfl)).trans_le (length_pixelAccesses_le ..), by simp [pixelState]⟩
  · exact ⟨(congrArg List.length (issued_of_append rfl)).trans_le (length_pixelAccesses_le ..), by simp [heldState]⟩

end

/-- Settles O30: the commands that reach the port are START, once per image cell, and PIXEL. -/
theorem portAccessesAreBounded : Obligations.PortAccessesAreBounded := by
  unfold Obligations.PortAccessesAreBounded
  intro s i
  obtain ⟨t, h⟩ := exec_next i s
  refine ⟨t, h, fun hi => setup_port_unchanged hi h, ?_, ?_⟩
  · rintro rfl hs
    cases (execStart_of_outside hs).symm.trans h
    rw [issued_startState, List.length_map, length_imageCells, Nat.mul_comm]
    refine ⟨rfl, fun e he => ?_⟩
    obtain ⟨a, -, rfl⟩ := List.mem_map.1 he
    exact ⟨a, rfl⟩
  · rintro ⟨p, n, rfl⟩
    exact pixel_port_bounded h

/-! ### Every step but a refused one has a next state (R119, R53) -/

theorem execWord_next (cmd : Word) (s : State) : ∃ t, execWord cmd s = .next t := by
  unfold execWord
  split
  next i _ => exact exec_next i s
  next => rcases unlessError_cases s (raise .illegalOpcode cmd s) with ⟨_, e⟩ | ⟨_, e⟩ <;> exact ⟨_, e⟩
  next => rcases unlessError_cases s (raise .reservedField cmd s) with ⟨_, e⟩ | ⟨_, e⟩ <;> exact ⟨_, e⟩

theorem run_of_owned {s : State} {a : ErrAddr} (h : owned s a = true) : s.regs.state = .run := (owned_iff.1 h).1

/-- An event has a next state, or is an access of the host to a word the block owns. -/
theorem takeInput_next_or_refused (event : Input) (s : State) :
    (∃ t, takeInput event s = .next t)
      ∨ (takeInput event s = .refused .foreignErrAccess ∧ s.regs.state = .run
          ∧ ∃ a, event = .hostRead a ∨ ∃ v, event = .hostWrite a v) := by
  cases event with
  | command cmd => exact .inl (execWord_next cmd s)
  | reset => exact .inl ⟨_, rfl⟩
  | resetDuring cmd kept b =>
    obtain ⟨u, hu⟩ := execWord_next cmd s
    exact .inl ⟨abandon s u kept b, by rw [takeInput, execWordAbandoned, hu]⟩
  | hostRead a =>
    by_cases ho : owned s a = true
    · exact .inr ⟨hostRead_of_owned ho, run_of_owned ho, a, .inl rfl⟩
    · exact .inl ⟨_, hostRead_of_not_owned ho⟩
  | hostWrite a v =>
    by_cases ho : owned s a = true
    · exact .inr ⟨hostWrite_of_owned v ho, run_of_owned ho, a, .inr ⟨v, rfl⟩⟩
    · exact .inl ⟨_, hostWrite_of_not_owned v ho⟩
  | outReady ready => exact .inl ⟨_, rfl⟩

/-- Settles O16: a waiting step answers its own state, and every other takes an event. -/
theorem onlyAForeignAccessHasNoMeaning : Obligations.OnlyAForeignAccessHasNoMeaning := by
  unfold Obligations.OnlyAForeignAccessHasNoMeaning
  intro s
  rw [step]
  split
  next => exact .inl ⟨s, rfl⟩
  next event rest hn =>
    rcases takeInput_next_or_refused event { s with input := rest } with hnext | ⟨href, hrun, a, ha⟩
    · exact .inl hnext
    · refine .inr ⟨href, hrun, a, rest, ?_⟩
      rcases ha with rfl | ⟨v, rfl⟩
      · exact .inl hn
      · exact .inr ⟨v, hn⟩

end Sys2Proof.CommandProofs
end

section
/-! SUPPORT. What the additions of a pixel leave in each cell of the frame (spec/41_error_distributor.md R90, R93), and what
the cells hold between two pixels, as the frame function computes it (spec/20_memory.md R55, spec/43_commands.md R121). -/

namespace Sys2Proof.FrameProofs

open Machine Laws

/-! ### The cells after the additions of one pixel -/

/-- The term that pixel (r, c) adds to cell (r', c'), if it adds one (R90). -/
def termTo (r c : Nat) (t : Terms) (r' c' : Nat) : Option F64 :=
  if r' = r ∧ c' = c + 1 then some t.right
  else if r' = r + 1 ∧ c' + 1 = c then some t.downLeft
  else if r' = r + 1 ∧ c' = c then some t.down
  else none

section
variable {w h r c r' c' : Nat} {t : Terms}

/-- Inside the frame no term is dropped (R93). -/
theorem mem_additions_of_termTo {x : F64} (hr : r' < h) (hc : c' < w) (hx : termTo r c t r' c' = some x) :
    (cellAddr w r' c', x) ∈ additions w h r c t := by
  rw [mem_additions]
  unfold termTo at hx
  split_ifs at hx with hright hdownLeft hdown <;> cases hx
  · obtain ⟨rfl, rfl⟩ := hright
    exact .inl ⟨hc, rfl⟩
  · obtain ⟨rfl, rfl⟩ := hdownLeft
    exact .inr (.inl ⟨⟨hr, by omega⟩, rfl⟩)
  · obtain ⟨rfl, rfl⟩ := hdown
    exact .inr (.inr ⟨hr, rfl⟩)

/-- A cell that gets no term is no target. -/
theorem ne_cellAddr_of_termTo (hw : w < 2 ^ 16) (hh : h < 2 ^ 16) (hr : r < h) (hc : c < w) (hr' : r' < h)
    (hc' : c' < w) (hnone : termTo r c t r' c' = none) : ∀ x ∈ additions w h r c t, x.1 ≠ cellAddr w r' c' := by
  intro x hx e
  unfold termTo at hnone
  split_ifs at hnone with hright hdownLeft hdown
  rcases mem_additions.1 hx with ⟨hin, rfl⟩ | ⟨⟨hin, hin'⟩, rfl⟩ | ⟨hin, rfl⟩
  · obtain ⟨h1, h2⟩ := cellAddr_inj hw (by omega) (by omega) (by omega) (by omega) e
    exact hright ⟨h1.symm, h2.symm⟩
  · obtain ⟨h1, h2⟩ := cellAddr_inj hw (by omega) (by omega) (by omega) (by omega) e
    exact hdownLeft ⟨h1.symm, by omega⟩
  · obtain ⟨h1, h2⟩ := cellAddr_inj hw (by omega) (by omega) (by omega) (by omega) e
    exact hdown ⟨h1.symm, h2.symm⟩

/-- Each cell of the frame gets the one term that the pixel has for it. -/
theorem readWord_additions (hw : w < 2 ^ 16) (hh : h < 2 ^ 16) (hr : r < h) (hc : c < w) (hr' : r' < h) (hc' : c' < w)
    (m : Memory) :
    (addMemory (additions w h r c t) m).readWord (cellAddr w r' c') =
      contribute (m.readWord (cellAddr w r' c')) (termTo r c t r' c') := by
  cases hx : termTo r c t r' c' with
  | none => exact readWord_addMemory_ne _ m _ (ne_cellAddr_of_termTo hw hh hr hc hr' hc' hx)
  | some x =>
    have hdistinct := nodup_additions t hw hh (hr.trans hh) (hc.trans hw)
    exact readWord_addMemory_mem _ m hdistinct (mem_additions_of_termTo hr' hc' hx)

end

/-! ### The cells between two pixels (R55) -/

/-- What cell (r', c') holds before its own pixel, when the pixels of row r that `cur` has results of are done: `above` are
the results of row r - 1 (none before row 0). -/
def cellBefore (r : Nat) (above cur : List PixelOut) (r' c' : Nat) : F64 :=
  if r' = r then cellError above[c']? above[c' + 1]? (if c' = cur.length then cur.getLast? else none)
  else if r' = r + 1 then cellError cur[c']? cur[c' + 1]? none
  else posZero

/-- The cells whose pixels are still to come hold what the frame function has for them so far. -/
def CellsHold (w h r : Nat) (above cur : List PixelOut) (m : Memory) : Prop :=
  ∀ r' c', r' < h → c' < w → (r' = r ∧ cur.length ≤ c') ∨ r < r' →
    m.readWord (cellAddr w r' c') = cellBefore r above cur r' c'

section
variable {w h r : Nat} {above cur : List PixelOut} {m : Memory}

/-- Before the first pixel every cell holds +0.0. -/
theorem cellsHold_of_zero (hz : ∀ r c, r < h → c < w → m.readWord (cellAddr w r c) = posZero) :
    CellsHold w h 0 [] [] m := by
  intro r' c' hr hc _
  rw [hz r' c' hr hc, cellBefore]
  split_ifs <;> rfl

/-- The level of the next pixel is that of the frame function. -/
theorem CellsHold.readWord_current (hm : CellsHold w h r above cur m) (hr : r < h) (hc : cur.length < w) :
    m.readWord (cellAddr w r cur.length) = cellError above[cur.length]? above[cur.length + 1]? cur.getLast? := by
  rw [hm r cur.length hr hc (.inl ⟨rfl, le_rfl⟩), cellBefore, if_pos rfl, if_pos rfl]

/-- In the pixel's own row only the next cell gets a term, its last one (R55). -/
theorem cellBefore_append_ownRow (o : PixelOut) {c' : Nat} (hc : cur.length + 1 ≤ c') :
    cellBefore r above (cur ++ [o]) r c' =
      contribute (cellBefore r above cur r c') (termTo r cur.length o.terms r c') := by
  rcases Nat.eq_or_lt_of_le hc with rfl | hc
  · simp [cellBefore, termTo, cellError, contribute]
  · have h1 : c' ≠ cur.length := by omega
    have h2 : c' ≠ cur.length + 1 := by omega
    simp [cellBefore, termTo, contribute, h1, h2]

/-- In the row below, a cell gets its down term from the pixel above it and then its down-left term from the next (R55). -/
theorem cellBefore_append_nextRow (o : PixelOut) (c' : Nat) :
    cellBefore r above (cur ++ [o]) (r + 1) c' =
      contribute (cellBefore r above cur (r + 1) c') (termTo r cur.length o.terms (r + 1) c') := by
  rcases Nat.lt_trichotomy c' cur.length with hlt | rfl | hgt
  · rcases Nat.eq_or_lt_of_le (Nat.succ_le_of_lt hlt) with hnext | hnext
    · simp [cellBefore, termTo, cellError, contribute, ← hnext, Nat.succ_eq_add_one]
    · simp [cellBefore, termTo, contribute, List.getElem?_append_left, hlt, hnext, hnext.ne, hlt.ne]
  · simp [cellBefore, termTo, cellError, contribute]
  · have hlen : (cur ++ [o]).length ≤ c' := by simpa using hgt
    have h1 : c' + 1 ≠ cur.length := by omega
    simp [cellBefore, termTo, contribute, List.getElem?_eq_none hlen, List.getElem?_eq_none (Nat.le_succ_of_le hlen),
      List.getElem?_eq_none hgt.le, List.getElem?_eq_none (Nat.le_succ_of_le hgt.le), h1, hgt.ne']

/-- One more result is one more term in each cell it goes to: the additions come in the order in which `cellError` takes
the terms. -/
theorem cellBefore_append (o : PixelOut) {r' c' : Nat} (hc : (r' = r ∧ cur.length + 1 ≤ c') ∨ r < r') :
    cellBefore r above (cur ++ [o]) r' c' =
      contribute (cellBefore r above cur r' c') (termTo r cur.length o.terms r' c') := by
  rcases hc with ⟨rfl, hc⟩ | hr
  · exact cellBefore_append_ownRow o hc
  · rcases Nat.eq_or_lt_of_le (Nat.succ_le_of_lt hr) with rfl | hr
    · exact cellBefore_append_nextRow o c'
    · have h1 : r' ≠ r := by omega
      have h2 : r' ≠ r + 1 := by omega
      simp [cellBefore, termTo, contribute, h1, h2]

/-- The additions of the next pixel, by its result. -/
theorem CellsHold.pixel (hm : CellsHold w h r above cur m) (hw : w < 2 ^ 16) (hh : h < 2 ^ 16) (hr : r < h)
    (hc : cur.length < w) (o : PixelOut) :
    CellsHold w h r above (cur ++ [o]) (addMemory (additions w h r cur.length o.terms) m) := by
  intro r' c' hr' hc' hpos
  rw [List.length_append, List.length_singleton] at hpos
  rw [readWord_additions hw hh hr hc hr' hc', hm r' c' hr' hc' (by omega), cellBefore_append o hpos]

/-- The end of a row is the beginning of the next. -/
theorem CellsHold.nextRow (hm : CellsHold w h r above cur m) : CellsHold w h (r + 1) cur [] m := by
  intro r' c' hr' hc' hpos
  have h1 : r' ≠ r := by omega
  rw [hm r' c' hr' hc' (.inr (by omega)), cellBefore, cellBefore, if_neg h1]
  split_ifs <;> rfl

end

end Sys2Proof.FrameProofs
end

section
/-! SUPPORT. A frame on the machine (spec/43_commands.md R120, R121, R152): START and the PIXELs of the frame in raster order,
each step of which the frame function follows. -/

namespace Sys2Proof.FrameProofs

open Machine Laws StateProofs EncodingProofs CommandProofs

/-! ### Runs of command words -/

theorem execWord_of_error {cmd : Word} {s : State} (hs : s.regs.state = .error) : execWord cmd s = .next s := by
  obtain ⟨t, h⟩ := execWord_next cmd s
  cases WordEffect.of_execWord h with
  | unchanged => exact h
  | fault _ _ hne => exact absurd hs hne
  | nonfinite _ _ _ hrun | pixel _ _ _ hrun | held _ _ _ hrun => cases hs.symm.trans hrun
  | setw _ _ ho | seth _ _ ho | start _ ho => rcases ho with ho | ho <;> cases hs.symm.trans ho

/-- A run that does not stop is its first step and the run from there. -/
theorem exists_step_of_run {M : Host.Core} {s t : M.State} {k : Nat} (h : M.run (k + 1) s = .next t) :
    ∃ u, M.step s = .next u ∧ M.run k u = .next t := by
  rw [Host.Core.run] at h
  split at h
  next u hu => exact ⟨u, hu, h⟩
  next => cases h
  next => cases h

section
variable {s t : State} {k : Nat} {rest : List Input}

theorem run_zero (h : Sys2Proof.core.run 0 s = .next t) : t = s := by
  cases h
  rfl

theorem run_succ (h : Sys2Proof.core.run (k + 1) s = .next t) :
    ∃ u, step s = .next u ∧ Sys2Proof.core.run k u = .next t := exists_step_of_run h

/-- The first step of a run that takes a command. -/
theorem run_command {i : Instr} (hb : s.heldBeat = none) (hi : s.input = .command (encode i) :: rest)
    (h : Sys2Proof.core.run (k + 1) s = .next t) :
    ∃ u, exec i { s with input := rest } = .next u ∧ Sys2Proof.core.run k u = .next t := by
  obtain ⟨u, hu, hrun⟩ := run_succ h
  rw [step_of_command hb hi, execWord_of_instr (decode_encode i)] at hu
  exact ⟨u, hu, hrun⟩

/-- Some words offered before other events. -/
def offered (words : List Word) (rest : List Input) : List Input := words.map .command ++ rest

/-- Command words do not leave ERROR: a run of them that ends without a fault has met none (R136). -/
theorem faultFree_of_run {words : List Word} (hb : s.heldBeat = none) (hi : s.input = offered words rest)
    (h : Sys2Proof.core.run words.length s = .next t) (ht : t.FaultFree) : s.FaultFree := by
  induction words generalizing s with
  | nil =>
    cases run_zero h
    exact ht
  | cons cmd words ih =>
    intro herr
    obtain ⟨u, hu, hrun⟩ := run_succ h
    rw [step_of_command hb hi] at hu
    cases (execWord_of_error (s := { s with input := offered words rest }) herr).symm.trans hu
    exact ih (s := { s with input := offered words rest }) hb rfl hrun herr

end

/-! ### The position during a frame (R117) -/

/-- The registers with pixel (r, c) to come next, and DONE when that is past the last row. -/
def regsAt (base : Regs) (r c : Nat) : Regs :=
  { base with
    row := BitVec.ofNat 16 r
    col := BitVec.ofNat 16 c
    state := if r = base.height.toNat then .done else .run }

/-- The registers when `c` pixels of row `r` are done: the next pixel is in this row or begins the next. -/
def scanRegs (base : Regs) (r c : Nat) : Regs :=
  if c < base.width.toNat then regsAt base r c else regsAt base (r + 1) 0

section
variable {base : Regs} {r c : Nat}

theorem startRegs_eq_scanRegs (hw : 1 ≤ base.width.toNat) (hh : 1 ≤ base.height.toNat) :
    startRegs base = scanRegs base 0 0 := by
  have hw' : base.width ≠ 0 := fun e => by simp [e] at hw
  have hh' : base.height ≠ 0 := fun e => by simp [e] at hh
  rw [scanRegs, if_pos (Nat.lt_of_succ_le hw), startRegs, regsAt, if_neg (not_or.2 ⟨hw', hh'⟩), if_neg (by omega)]
  rfl

theorem advanceRegs_scanRegs (hr : r < base.height.toNat) (hc : c < base.width.toNat) :
    advanceRegs (scanRegs base r c) = scanRegs base r (c + 1) := by
  have hrow : (BitVec.ofNat 16 r).toNat = r := Nat.mod_eq_of_lt (hr.trans base.height.isLt)
  have hcol : (BitVec.ofNat 16 c).toNat = c := Nat.mod_eq_of_lt (hc.trans base.width.isLt)
  rw [scanRegs, if_pos hc, scanRegs]
  simp only [advanceRegs, regsAt, hrow, hcol, hr.ne, if_false]
  rfl

theorem scanRegs_width_eq (hw : 1 ≤ base.width.toNat) : scanRegs base r base.width.toNat = scanRegs base (r + 1) 0 := by
  rw [scanRegs, if_neg (lt_irrefl _), scanRegs, if_pos (Nat.lt_of_succ_le hw)]

theorem scanRegs_height (hw : 1 ≤ base.width.toNat) :
    scanRegs base base.height.toNat 0 = { base with state := .done, row := base.height, col := 0 } := by
  simp [scanRegs, regsAt, Nat.lt_of_succ_le hw]

end

/-! ### One pixel of a frame -/

/-- A frame of the size in `base` is at row `r`, where the pixels that `cur` has results of are done, and `above` are the
results of the row before. -/
structure Scanning (base : Regs) (roms : Roms) (r : Nat) (above cur : List PixelOut) (s : State) : Prop where
  regs : s.regs = scanRegs base r cur.length
  roms : s.roms = roms
  cells : CellsHold base.width.toNat base.height.toNat r above cur s.err
  ready : s.outReady = true
  free : s.heldBeat = none

/-- What the frame function computes for the next pixel. -/
def nextOut (roms : Roms) (above cur : List PixelOut) (q : PixelIn) : PixelOut :=
  pixelOut roms (cellError above[cur.length]? above[cur.length + 1]? cur.getLast?) q

/-- The words of some pixels (R152). -/
def pixelWords (qs : List PixelIn) : List Word := qs.map (fun q => encode (.pixel q.p q.n))

theorem length_pixelWords (qs : List PixelIn) : (pixelWords qs).length = qs.length := List.length_map ..

section
variable {base : Regs} {roms : Roms} {r : Nat} {above cur : List PixelOut} {s : State}

theorem scanning_startState (hw : 1 ≤ s.regs.width.toNat) (hh : 1 ≤ s.regs.height.toNat) (hr : s.outReady = true)
    (hb : s.heldBeat = none) : Scanning s.regs s.roms 0 [] [] (startState s) where
  regs := startRegs_eq_scanRegs hw hh
  roms := rfl
  cells := cellsHold_of_zero fun _ _ hr hc => readWord_startState hr hc
  ready := hr
  free := hb

theorem Scanning.withInput (h : Scanning base roms r above cur s) (input : List Input) :
    Scanning base roms r above cur { s with input := input } :=
  ⟨h.regs, h.roms, h.cells, h.ready, h.free⟩

theorem Scanning.nextRow (h : Scanning base roms r above cur s) (hw : 1 ≤ base.width.toNat)
    (hc : cur.length = base.width.toNat) : Scanning base roms (r + 1) cur [] s where
  regs := by rw [h.regs, hc, scanRegs_width_eq hw]; rfl
  roms := h.roms
  cells := h.cells.nextRow
  ready := h.ready
  free := h.free

section
variable (h : Scanning base roms r above cur s) (hr : r < base.height.toNat) (hc : cur.length < base.width.toNat)
include h hr hc

theorem Scanning.regs_eq : s.regs = { base with
    row := BitVec.ofNat 16 r, col := BitVec.ofNat 16 cur.length, state := .run } := by
  rw [h.regs, scanRegs, if_pos hc, regsAt, if_neg hr.ne]

theorem Scanning.run_state : s.regs.state = .run := by rw [h.regs_eq hr hc]

theorem Scanning.row_toNat : s.regs.row.toNat = r := by
  rw [h.regs_eq hr hc]
  exact Nat.mod_eq_of_lt (hr.trans base.height.isLt)

theorem Scanning.col_toNat : s.regs.col.toNat = cur.length := by
  rw [h.regs_eq hr hc]
  exact Nat.mod_eq_of_lt (hc.trans base.width.isLt)

theorem Scanning.levelNow_eq (q : PixelIn) : levelNow q.p s = (nextOut roms above cur q).corrected := by
  have hcell : currentCell s = cellAddr base.width.toNat r cur.length := by
    rw [currentCell, h.row_toNat hr hc, h.col_toNat hr hc, h.regs_eq hr hc]
  rw [levelNow, hcell, h.cells.readWord_current hr hc]
  rfl

theorem Scanning.beatNow_eq (q : PixelIn) : beatNow q.p q.n s = beatOf (nextOut roms above cur q).level := by
  rw [beatNow, h.levelNow_eq hr hc, h.roms]
  rfl

theorem Scanning.pixelAdds_eq (q : PixelIn) :
    pixelAdds q.p q.n (levelNow q.p s) s =
      additions base.width.toNat base.height.toNat r cur.length (nextOut roms above cur q).terms := by
  rw [pixelAdds, h.levelNow_eq hr hc, h.row_toNat hr hc, h.col_toNat hr hc, h.regs_eq hr hc, h.roms]
  rfl

/-- The machine's pixel is the frame function's. -/
theorem Scanning.pixel (q : PixelIn) :
    Scanning base roms r above (cur ++ [nextOut roms above cur q]) (pixelState q.p q.n s) where
  regs := by
    rw [List.length_append, List.length_singleton, ← advanceRegs_scanRegs hr hc, ← h.regs]
    rfl
  roms := h.roms
  cells := by
    have hadds := h.pixelAdds_eq hr hc q
    have hcells := h.cells.pixel base.width.isLt base.height.isLt hr hc (nextOut roms above cur q)
    rw [← hadds] at hcells
    exact hcells
  ready := h.ready
  free := h.free

/-- A pixel in a run of command words that ends without a fault has a finite level. -/
theorem Scanning.run_pixel {q : PixelIn} {qs : List PixelIn} {rest : List Input} {t : State}
    (hi : s.input = offered (pixelWords (q :: qs)) rest)
    (hrun : Sys2Proof.core.run (q :: qs).length s = .next t) (ht : t.FaultFree) :
    Sys2Proof.core.run qs.length (pixelState q.p q.n { s with input := offered (pixelWords qs) rest }) = .next t := by
  obtain ⟨u, hu, hrest⟩ := run_command (rest := offered (pixelWords qs) rest) h.free hi hrun
  generalize hs' : { s with input := offered (pixelWords qs) rest } = s' at hu ⊢
  have h' : Scanning base roms r above cur s' := hs' ▸ h.withInput _
  have hs := h'.run_state hr hc
  cases hx : isFinite (levelNow q.p s') with
  | true =>
    cases (execPixel_of_finite q.n hs hx h'.ready).symm.trans hu
    exact hrest
  | false =>
    cases (execPixel_of_nonfinite q.n hs hx).symm.trans hu
    rw [← length_pixelWords] at hrest
    refine absurd rfl (faultFree_of_run (rest := rest) ?_ ?_ hrest ht)
    · exact h'.free
    · rw [← hs']; rfl

end

/-! ### The rows of a frame -/

/-- The beats of some results. -/
def beatsOf (os : List PixelOut) : List Beat := os.map (fun o => beatOf o.level)

theorem scanRow_cons (roms : Roms) (above cur : List PixelOut) (q : PixelIn) (qs : List PixelIn) :
    scanRow roms (above.drop cur.length) cur.getLast? (q :: qs) =
      nextOut roms above cur q
        :: scanRow roms (above.drop (cur ++ [nextOut roms above cur q]).length)
          (cur ++ [nextOut roms above cur q]).getLast? qs := by
  simp [scanRow, nextOut]

theorem length_scanRow (roms : Roms) (above : List PixelOut) (left : Option PixelOut) (qs : List PixelIn) :
    (scanRow roms above left qs).length = qs.length := by
  induction qs generalizing above left with
  | nil => rfl
  | cons q qs ih => exact congrArg (· + 1) (ih _ _)

/-- The rest `qs` of a row, in a run that goes on with the pixels `ps`. -/
theorem Scanning.run_row {qs ps : List PixelIn} {rest : List Input} {t : State}
    (h : Scanning base roms r above cur s) (hr : r < base.height.toNat) (hc : cur.length + qs.length = base.width.toNat)
    (hi : s.input = offered (pixelWords (qs ++ ps)) rest)
    (hrun : Sys2Proof.core.run (qs ++ ps).length s = .next t) (ht : t.FaultFree) :
    ∃ u, Scanning base roms r above (cur ++ scanRow roms (above.drop cur.length) cur.getLast? qs) u
      ∧ u.out = s.out ++ beatsOf (scanRow roms (above.drop cur.length) cur.getLast? qs)
      ∧ u.input = offered (pixelWords ps) rest
      ∧ Sys2Proof.core.run ps.length u = .next t := by
  induction qs generalizing cur s with
  | nil => exact ⟨s, by simpa [scanRow] using h, by simp [scanRow, beatsOf], hi, hrun⟩
  | cons q qs ih =>
    rw [List.length_cons] at hc
    have hin : cur.length < base.width.toNat := by omega
    have hnext := (h.withInput (offered (pixelWords (qs ++ ps)) rest)).pixel hr hin q
    obtain ⟨u, hu, hout, hrest⟩ := ih hnext (by rw [List.length_append, List.length_singleton]; omega) rfl
      (h.run_pixel hr hin hi hrun ht)
    refine ⟨u, ?_, ?_, hrest⟩
    · rw [scanRow_cons]
      simpa using hu
    · rw [hout, scanRow_cons]
      have hbeat := (h.withInput (offered (pixelWords (qs ++ ps)) rest)).beatNow_eq hr hin q
      simp [pixelState, beatsOf, hbeat]

/-- The rows from row `r` on. -/
theorem Scanning.run_rows {rows : List (List PixelIn)} {rest : List Input} {t : State} (hw : 1 ≤ base.width.toNat)
    (h : Scanning base roms r above [] s) (hr : r + rows.length = base.height.toNat)
    (hrows : ∀ row ∈ rows, row.length = base.width.toNat)
    (hi : s.input = offered (pixelWords rows.flatten) rest)
    (hrun : Sys2Proof.core.run rows.flatten.length s = .next t) (ht : t.FaultFree) :
    t.regs = scanRegs base base.height.toNat 0
      ∧ t.out = s.out ++ beatsOf (scanRows roms above rows).flatten ∧ t.input = rest ∧ t.heldBeat = none := by
  induction rows generalizing r above s with
  | nil =>
    cases run_zero hrun
    rw [List.length_nil, Nat.add_zero] at hr
    exact ⟨hr ▸ h.regs, by simp [scanRows, beatsOf], hi, h.free⟩
  | cons row rows ih =>
    rw [List.length_cons] at hr
    have hrow := hrows row (by simp)
    obtain ⟨u, hu, hout, hin, hrest⟩ := h.run_row (qs := row) (ps := rows.flatten) (by omega) (by simpa using hrow)
      hi hrun ht
    have hnext := hu.nextRow hw (by simpa [length_scanRow] using hrow)
    obtain ⟨hregs, hout', hfree⟩ := ih hnext (by omega) (fun row' h' => hrows row' (by simp [h'])) hin hrest
    refine ⟨hregs, ?_, hfree⟩
    rw [hout', hout]
    simp [scanRows, beatsOf]

end

/-- Settles O58: START begins the frame, the rows follow one by one, and before each pixel the cells to come hold what the
frame function has for them. -/
theorem frameFunction : Obligations.FrameFunction := by
  unfold Obligations.FrameFunction
  intro s t rows rest hs hw hh hlen hrows hi hr hb hrun ht
  have hinput : frameInput rows ++ rest =
      .command (encode .start) :: offered (pixelWords rows.flatten) rest := by
    simp [frameInput, offered, pixelWords, Function.comp_def]
  have hcount : (frameInput rows).length = rows.flatten.length + 1 := by rw [frameInput, List.length_cons, List.length_map]
  rw [hinput] at hi
  rw [hcount] at hrun
  obtain ⟨u, hu, hpixels⟩ := run_command hb hi hrun
  cases (execStart_of_outside (s := { s with input := offered (pixelWords rows.flatten) rest }) hs).symm.trans hu
  have hscan := scanning_startState (s := { s with input := offered (pixelWords rows.flatten) rest }) hw hh hr hb
  obtain ⟨hregs, hout, hin, hfree⟩ := hscan.run_rows hw ((Nat.zero_add _).trans hlen) hrows rfl hpixels ht
  exact ⟨hout, hregs.trans (scanRegs_height hw), hin, hfree⟩

end Sys2Proof.FrameProofs
end

section
/-! SUPPORT. An image of intensity 0 (spec/43_commands.md R121, spec/41_error_distributor.md R94): +0.0 in every cell gives the
level +0.0, the output 0 and terms of +0.0, which leave +0.0 in every cell. -/

namespace Sys2Proof.FrameProofs

open Machine Laws StateProofs ThresholdProofs DistributorProofs TablesProofs MemoryProofs CommandProofs

/-! ### A pixel of level +0.0 -/

/-- The terms of a residual of +0.0. -/
def zeroTerms : Terms := ⟨posZero, posZero, posZero⟩

/-- The result of a pixel of level +0.0. -/
def zeroOut : PixelOut := ⟨posZero, 0, zeroTerms⟩

theorem add64_posZero : add64 posZero posZero = posZero :=
  zeroTermLeavesTheCell posZero posZero isNaN_posZero (by decide) (by decide)

theorem correctedLevel_zero : correctedLevel 0 posZero = posZero := by
  rw [correctedLevel, show (0 : Pix).toNat = 0 from rfl, f64_zero, add64_posZero]

/-- +0.0 is below 128.0. -/
theorem thresh_posZero (roms : Roms) (n : Pix) : thresh roms posZero n = 0 := by
  obtain ⟨-, hlow, -⟩ := tableIndependentDecisions roms posZero n posZero_facts.2.2
  exact hlow (by decide +kernel)

theorem terms_posZero (roms : Roms) (p : Pix) : termsOf (coefRead roms p) (residualOf posZero 0) = zeroTerms := by
  rw [zeroOutputKeepsTheResidual posZero posZero_facts.2.2]
  exact zeroResidualGivesZeroTerms _ _ (legal_coefRead roms p)

theorem pixelOut_zero (roms : Roms) {q : PixelIn} (hq : q.p = 0) : pixelOut roms posZero q = zeroOut := by
  simp only [pixelOut, hq, correctedLevel_zero, thresh_posZero, terms_posZero, zeroOut]

/-! ### The frame function (R121) -/

/-- Zero terms, as many as there are, add up to +0.0. -/
theorem cellError_zero {up upRight left : Option PixelOut} (hup : ∀ o ∈ up, o = zeroOut)
    (hupRight : ∀ o ∈ upRight, o = zeroOut) (hleft : ∀ o ∈ left, o = zeroOut) :
    cellError up upRight left = posZero := by
  have hadd {o : Option PixelOut} (ho : ∀ x ∈ o, x = zeroOut) {term : PixelOut → F64} (ht : term zeroOut = posZero) :
      contribute posZero (o.map term) = posZero := by
    cases o with
    | none => rfl
    | some x =>
      rw [ho x rfl, Option.map_some, ht]
      exact add64_posZero
  rw [cellError, hadd hup rfl, hadd hupRight rfl, hadd hleft rfl]

theorem scanRow_zero (roms : Roms) {above : List PixelOut} {left : Option PixelOut} {qs : List PixelIn}
    (habove : ∀ o ∈ above, o = zeroOut) (hleft : ∀ o ∈ left, o = zeroOut) (hqs : ∀ q ∈ qs, q.p = 0) :
    scanRow roms above left qs = List.replicate qs.length zeroOut := by
  induction qs generalizing above left with
  | nil => rfl
  | cons q qs ih =>
    have htail : ∀ o ∈ above.tail, o = zeroOut := fun o ho => habove o (List.mem_of_mem_tail ho)
    have herror : cellError above.head? above.tail.head? left = posZero :=
      cellError_zero (fun o ho => habove o (List.mem_of_mem_head? ho)) (fun o ho => htail o (List.mem_of_mem_head? ho)) hleft
    have hout := pixelOut_zero roms (hqs q (by simp))
    have hrest := ih htail (left := some zeroOut) (by simp) (fun q' h' => hqs q' (by simp [h']))
    simp only [scanRow, herror, hout, hrest, List.length_cons, List.replicate_succ]

theorem scanRows_zero (roms : Roms) {above : List PixelOut} {rows : List (List PixelIn)}
    (habove : ∀ o ∈ above, o = zeroOut) (hrows : ∀ row ∈ rows, ∀ q ∈ row, q.p = 0) :
    (scanRows roms above rows).flatten = List.replicate rows.flatten.length zeroOut := by
  induction rows generalizing above with
  | nil => rfl
  | cons row rows ih =>
    have hrow := scanRow_zero roms habove (left := none) (by simp) (hrows row (by simp))
    have hrest := ih (above := List.replicate row.length zeroOut) (fun o ho => List.eq_of_mem_replicate ho)
      (fun row' h' => hrows row' (by simp [h']))
    simp only [scanRows, hrow, List.flatten_cons, hrest, List.length_append, List.replicate_append_replicate]

/-- Settles O59: every result is that of a pixel of level +0.0. -/
theorem zeroImageGivesZeroBeats : Obligations.ZeroImageGivesZeroBeats := by
  unfold Obligations.ZeroImageGivesZeroBeats
  intro roms rows hrows
  rw [frameBeats, scanRows_zero roms (by simp) hrows, List.map_replicate]
  rfl

/-! ### The machine (R116) -/

theorem contribute_termTo_zero (r c r' c' : Nat) : contribute posZero (termTo r c zeroTerms r' c') = posZero := by
  unfold termTo
  split_ifs
  case neg => rfl
  all_goals exact add64_posZero

/-- Settles O60: the PIXEL reads +0.0, so its output is 0 and it adds +0.0 to cells of +0.0. -/
theorem zeroPixelKeepsZeroCells : Obligations.ZeroPixelKeepsZeroCells := by
  unfold Obligations.ZeroPixelKeepsZeroCells
  intro s n hs hr hrow hcol hz
  rw [BitVec.lt_def] at hrow hcol
  have hlevel : levelNow 0 s = posZero := by rw [levelNow, currentCell, hz _ _ hrow hcol, correctedLevel_zero]
  have hbeat : beatNow 0 n s = 0x00#8 := by
    rw [beatNow, hlevel, thresh_posZero]
    rfl
  refine ⟨pixelState 0 n s, execPixel_of_finite n hs (hlevel ▸ posZero_facts.2.2) hr, congrArg (s.out ++ [·]) hbeat,
    advanceRegs_ne_error hs, fun r c hr' hc' => ?_⟩
  have hadds : pixelAdds 0 n (levelNow 0 s) s =
      additions s.regs.width.toNat s.regs.height.toNat s.regs.row.toNat s.regs.col.toNat zeroTerms := by
    rw [pixelAdds, hlevel, thresh_posZero, terms_posZero]
  have hcell := readWord_additions (t := zeroTerms) s.regs.width.isLt s.regs.height.isLt hrow hcol hr' hc' s.err
  rw [hz r c hr' hc', contribute_termTo_zero, ← hadds] at hcell
  exact hcell

end Sys2Proof.FrameProofs
end

section
/-! SUPPORT. Faults and the state ERROR (spec/60_exceptions.md R131 to R136, R143): what a word that faults leaves, which
cause it reports, and which event leaves ERROR. -/

namespace Sys2Proof.FaultProofs

open Machine Laws StateProofs EncodingProofs MemoryProofs CommandProofs FrameProofs

/-! ### A word that takes a fault (R131, R132) -/

section
variable {s t : State} {cmd : Word} {i : Instr}

/-- A word that enters ERROR has done fault entry, and before it at most the one read of a PIXEL. -/
theorem eq_takeFault_of_wordEffect (e : WordEffect cmd s t) (hs : s.regs.state ≠ .error) (ht : t.regs.state = .error) :
    (∃ cause, cause ≠ .none ∧ t = takeFault cause cmd s)
      ∨ t = takeFault .nonfinite cmd (errRead (currentCell s) s).2 := by
  cases e with
  | fault cause hc => exact .inl ⟨cause, hc, rfl⟩
  | nonfinite => exact .inr rfl
  | unchanged | setw | seth | held => exact absurd ht hs
  | start =>
    rcases startRegs_state_cases s.regs with ⟨hdone, -⟩ | ⟨hrun, -⟩
    · cases hdone.symm.trans ht
    · cases hrun.symm.trans ht
  | pixel _ _ _ hrun => exact absurd ht (advanceRegs_ne_error hrun)

/-! ### Which cause a command reports (R133) -/

/-- In RUN every command but NOP and PIXEL takes BAD_STATE (R110). -/
theorem exec_of_run (hs : s.regs.state = .run) (hi : ∀ p n, i ≠ .pixel p n) :
    exec i s = .next s ∨ exec i s = .next (takeFault .badState (encode i) s) := by
  cases i with
  | nop => exact .inl (execNop_eq s)
  | setw w => exact .inr (execSetw_of_run w hs)
  | seth h => exact .inr (execSeth_of_run h hs)
  | start => exact .inr (execStart_of_run hs)
  | pixel p n => exact absurd rfl (hi p n)

/-- A state that is neither RUN nor ERROR is outside a frame (R22). -/
theorem outside_of_ne (hrun : s.regs.state ≠ .run) (herr : s.regs.state ≠ .error) :
    s.regs.state = .idle ∨ s.regs.state = .done := by
  cases hs : s.regs.state with
  | idle => exact .inl rfl
  | done => exact .inr rfl
  | run => exact absurd hs hrun
  | error => exact absurd hs herr

/-- A command that is not allowed in the state it finds reports BAD_STATE, if it faults. -/
theorem cause_of_disallowed (hs : s.regs.state ≠ .error) (h : exec i s = .next t) (ht : t.regs.state = .error)
    (hbad : (s.regs.state = .run ∧ ∀ p n, i ≠ .pixel p n) ∨ (s.regs.state ≠ .run ∧ ∃ p n, i = .pixel p n)) :
    t.regs.cause = .badState := by
  rcases hbad with ⟨hrun, hi⟩ | ⟨hrun, p, n, rfl⟩
  · rcases exec_of_run hrun hi with e | e <;> cases e.symm.trans h
    · exact absurd ht hs
    · rfl
  · cases (execPixel_of_outside p n (outside_of_ne hrun hs)).symm.trans h
    rfl

/-- A PIXEL in RUN reports NONFINITE, if it faults. -/
theorem cause_of_pixel_in_run {p n : Pix} (hs : s.regs.state = .run) (h : exec (.pixel p n) s = .next t)
    (ht : t.regs.state = .error) : t.regs.cause = .nonfinite := by
  have hne : s.regs.state ≠ .error := by simp [hs]
  rcases execPixel_cases p n s with ⟨herr, _⟩ | ⟨hout, _⟩ | ⟨_, _, e⟩ | ⟨_, _, _, e⟩ | ⟨_, _, _, e⟩
  · exact absurd herr hne
  · rcases hout with hout | hout <;> cases hs.symm.trans hout
  · cases e.symm.trans h
    rfl
  · cases e.symm.trans h
    exact absurd ht (advanceRegs_ne_error hs)
  · cases e.symm.trans h
    exact absurd ht hne

end

/-- Settles O19: fault entry writes the three registers, and the read of a PIXEL shows in the port's trace only. -/
theorem faultsArePrecise : Obligations.FaultsArePrecise := by
  unfold Obligations.FaultsArePrecise
  intro s t cmd hs h ht
  rcases eq_takeFault_of_wordEffect (.of_execWord h) hs ht with ⟨cause, hc, rfl⟩ | rfl
  · exact ⟨rfl, hc, rfl, rfl, rfl, rfl, rfl, rfl, .inl rfl⟩
  · exact ⟨rfl, nofun, rfl, rfl, rfl, rfl, rfl, rfl, .inr ⟨rfl, rfl⟩⟩

/-- Settles O20: ERROR comes before the decoder, the decoder's two causes before the command, and the command's own check
of STATE before PIXEL's level. -/
theorem faultPriority : Obligations.FaultPriority := by
  unfold Obligations.FaultPriority
  intro s t cmd h
  refine ⟨fun hs => ?_, fun hs ht => ⟨fun hop => ?_, fun hd => ?_, fun i hd hbad => ?_, fun i hd hrun hi => ?_⟩⟩
  · cases (execWord_of_error hs).symm.trans h
    rfl
  · cases (execWord_of_illegalOpcode ((decode_eq_illegalOpcode_iff cmd).2 hop) hs).symm.trans h
    rfl
  · cases (execWord_of_reservedField hd hs).symm.trans h
    rfl
  · exact cause_of_disallowed hs ((execWord_of_instr hd).symm.trans h) ht hbad
  · obtain ⟨p, n, rfl⟩ := hi
    exact cause_of_pixel_in_run hrun ((execWord_of_instr hd).symm.trans h) ht

/-! ### The state ERROR (R136) -/

/-- Outside RUN no beat is held: a held beat belongs to a PIXEL in progress. -/
theorem heldBeat_of_ne_run {s : State} (h : s.HoldInv) (hs : s.regs.state ≠ .run) : s.heldBeat = none := by
  cases hb : s.heldBeat with
  | none => rfl
  | some b => exact absurd (h b hb).1 hs

/-- In ERROR a word that is taken has no effect (R136, R110). -/
theorem step_of_command_in_error {s : State} {cmd : Word} {rest : List Input} (hb : s.heldBeat = none)
    (hi : s.input = .command cmd :: rest) (hs : s.regs.state = .error) : step s = .next { s with input := rest } := by
  rw [step_of_command hb hi]
  exact execWord_of_error hs

/-- An event taken in ERROR leaves the registers as they are, or is a reset. -/
theorem takeInput_regs_of_error {s t : State} {event : Input} (hb : s.heldBeat = none) (hs : s.regs.state = .error)
    (h : takeInput event s = .next t) :
    t.regs = s.regs
      ∨ (t.regs = Regs.reset ∧ (event = .reset ∨ ∃ cmd kept b, event = .resetDuring cmd kept b)) := by
  cases event with
  | command cmd =>
    cases (execWord_of_error hs).symm.trans h
    exact .inl rfl
  | reset =>
    cases h
    exact .inr ⟨resetBlock_regs s, .inl rfl⟩
  | resetDuring cmd kept b =>
    obtain ⟨u, -, rfl⟩ := execWordAbandoned_next h
    exact .inr ⟨abandon_regs s u kept b, .inr ⟨cmd, kept, b, rfl⟩⟩
  | hostRead a =>
    rw [hostRead_next h]
    exact .inl rfl
  | hostWrite a v =>
    obtain ⟨-, rfl⟩ := hostWrite_next h
    exact .inl rfl
  | outReady ready =>
    cases h
    rcases setOutReady_cases ready s with ⟨-, e⟩ | ⟨b, hheld, -⟩
    · rw [e]
      exact .inl rfl
    · cases hb.symm.trans hheld

/-- Settles O21: no beat is held in ERROR, so no PIXEL can end there, and of the events only a reset writes registers. -/
theorem onlyResetLeavesError : Obligations.OnlyResetLeavesError := by
  unfold Obligations.OnlyResetLeavesError
  intro s t hhold hs h
  have hb : s.heldBeat = none := heldBeat_of_ne_run hhold (by simp [hs])
  refine ⟨?_, fun cmd rest hi => ?_⟩
  · rcases step_next h with ⟨-, rfl⟩ | ⟨event, rest, hn, htake⟩
    · exact .inl rfl
    · rcases takeInput_regs_of_error (s := { s with input := rest }) hb hs htake with hsame | ⟨hreset, hevent⟩
      · exact .inl hsame
      · refine .inr ⟨hreset, rest, ?_⟩
        rcases hevent with rfl | ⟨cmd, kept, b, rfl⟩
        · exact .inl hn
        · exact .inr ⟨cmd, kept, b, hn⟩
  · cases (step_of_command_in_error hb hi hs).symm.trans h
    rfl

/-- Settles O10: the word is taken, and executes without effect. -/
theorem errorStateIgnoresEveryWord : Obligations.ErrorStateIgnoresEveryWord := by
  unfold Obligations.ErrorStateIgnoresEveryWord
  exact fun s cmd rest hb hi hs => step_of_command_in_error hb hi hs

/-! ### Waiting (R143) -/

/-- With nothing offered there is no event to take, whether a beat is held or not. -/
theorem nextEvent_of_nil {s : State} (h : s.input = []) : s.nextEvent = none := by
  rw [State.nextEvent, h, takeable]

/-- Settles O11: a step without an event answers its own state. -/
theorem waitingKeepsAllState : Obligations.WaitingKeepsAllState := by
  unfold Obligations.WaitingKeepsAllState
  intro s h
  rw [step, nextEvent_of_nil h]

end Sys2Proof.FaultProofs
end

section
/-! SUPPORT. Reset (spec/70_reset_and_hazards.md R150) and the held block (R155 (e)): a command writes each word of ERR at
most once, so a reset that lands during it leaves every word old or new; and a block that holds for its beat takes no
word, but goes on where it stood when the beat is taken. -/

namespace Sys2Proof.ResetProofs

open Machine Laws StateProofs EncodingProofs MemoryProofs CommandProofs

/-! ### What a command writes stays until its end (R48, R50, R114) -/

/-- No write that the block issued between `s` and `t` was overwritten by another value: a word written holds in `t` what
each of its writes stored, and a word not written is as in `s`. -/
structure WritesStay (s t : State) : Prop where
  written : ∀ a v, .write a v ∈ issued s t → t.err.readWord a = v
  unwritten : ∀ a, (∀ v, .write a v ∉ issued s t) → t.err.readWord a = s.err.readWord a

/-- Where nothing was written and ERR is as before. -/
theorem WritesStay.of_same {s t : State} (herr : t.err = s.err) (hno : ∀ a v, .write a v ∉ issued s t) :
    WritesStay s t where
  written a v hv := absurd hv (hno a v)
  unwritten a _ := by rw [herr]

/-- Where the port showed nothing and ERR is as before. -/
theorem WritesStay.of_quiet {s t : State} (herr : t.err = s.err) (htrace : t.errTrace = s.errTrace) :
    WritesStay s t :=
  .of_same herr fun a v => by simp [issued, htrace]

/-- Every target of a run of ErrAdds is written. -/
theorem exists_write_mem_addAccesses {adds : List (ErrAddr × F64)} {m : Memory} {x : ErrAddr × F64} (hx : x ∈ adds) :
    ∃ v, .write x.1 v ∈ addAccesses adds m := by
  induction adds generalizing m with
  | nil => simp at hx
  | cons y rest ih =>
    rcases List.mem_cons.1 hx with rfl | hx
    · exact ⟨_, .tail _ (.head _)⟩
    · obtain ⟨v, hv⟩ := ih hx
      exact ⟨v, .tail _ (.tail _ hv)⟩

/-- With different targets, what an ErrAdd writes is what its word holds after all of them. -/
theorem readWord_addMemory_of_write {adds : List (ErrAddr × F64)} {m : Memory} {a : ErrAddr} {v : F64}
    (hn : (adds.map (·.1)).Nodup) (hv : .write a v ∈ addAccesses adds m) : (addMemory adds m).readWord a = v := by
  induction adds generalizing m with
  | nil => simp [addAccesses] at hv
  | cons x rest ih =>
    simp only [addAccesses, List.mem_cons, reduceCtorEq, false_or, ErrAccess.write.injEq] at hv
    rcases hv with ⟨rfl, rfl⟩ | hv
    · exact readWord_addMemory_mem _ m hn (.head _)
    · exact ih hn.of_cons hv

/-- A PIXEL reads its cell and adds its terms to different words; its beat, taken or withheld, is no access. -/
theorem writesStay_pixel {s t : State} (p n : Pix) (x : F64) (herr : t.err = addMemory (pixelAdds p n x s) s.err)
    (htrace : t.errTrace = s.errTrace ++ .read (currentCell s) :: addAccesses (pixelAdds p n x s) s.err) :
    WritesStay s t := by
  have hdistinct : ((pixelAdds p n x s).map (·.1)).Nodup :=
    nodup_additions _ s.regs.width.isLt s.regs.height.isLt s.regs.row.isLt s.regs.col.isLt
  have hwrite : ∀ a v, .write a v ∈ issued s t ↔ .write a v ∈ addAccesses (pixelAdds p n x s) s.err := fun a v => by
    simp [issued_of_append htrace]
  refine ⟨fun a v hv => ?_, fun a ha => ?_⟩
  · rw [herr]
    exact readWord_addMemory_of_write hdistinct ((hwrite a v).1 hv)
  · rw [herr]
    refine readWord_addMemory_ne _ s.err a fun y hy hya => ?_
    obtain ⟨v, hv⟩ := exists_write_mem_addAccesses (m := s.err) hy
    rw [hya] at hv
    exact ha v ((hwrite a v).2 hv)

/-- START writes +0.0 to every image cell, and nothing else. -/
theorem writesStay_startState (s : State) : WritesStay s (startState s) := by
  have hread : ∀ a, (startState s).err.readWord a =
      if a ∈ imageCells s.regs.width.toNat s.regs.height.toNat then posZero else s.err.readWord a :=
    readWord_foldl_writeWord _ posZero s.err
  refine ⟨fun a v hv => ?_, fun a ha => ?_⟩
  · rw [issued_startState] at hv
    obtain ⟨b, hb, e⟩ := List.mem_map.1 hv
    cases e
    rw [hread, if_pos hb]
  · rw [hread, if_neg fun hcell => ha posZero ?_]
    rw [issued_startState]
    exact List.mem_map.2 ⟨a, hcell, rfl⟩

theorem writesStay_of_wordEffect {cmd : Word} {s t : State} (e : WordEffect cmd s t) : WritesStay s t := by
  cases e with
  | unchanged | fault | setw | seth => exact .of_quiet rfl rfl
  | nonfinite => exact .of_same rfl fun a v => by simp [issued]
  | start => exact writesStay_startState s
  | pixel p n | held p n => exact writesStay_pixel p n (levelNow p s) rfl rfl

/-! ### Reset during a command (R150, U8) -/

/-- A word of ERR after an abandoned command is new if one of its writes was performed, and old if none was. -/
theorem readWord_abandon {s t : State} (h : WritesStay s t) (kept : List Bool) (beatSent : Bool) (a : ErrAddr) :
    ((∃ v, .write a v ∈ keepBy kept (issued s t))
        ∧ (abandon s t kept beatSent).err.readWord a = t.err.readWord a)
      ∨ ((∀ v, .write a v ∉ keepBy kept (issued s t))
        ∧ (abandon s t kept beatSent).err.readWord a = s.err.readWord a) := by
  rcases readWord_applyWrites (keepBy kept (issued s t)) s.err a with ⟨v, hv, e⟩ | hold
  · exact .inl ⟨⟨v, hv⟩, e.trans (h.written a v (keepBy_subset hv)).symm⟩
  · exact .inr hold

/-- The word that an access is to. -/
def accessAddr : ErrAccess → ErrAddr
  | .read a => a
  | .write a _ => a

/-- The mask that performs the accesses to the chosen words. -/
def maskOf (chosen : ErrAddr → Bool) (accesses : List ErrAccess) : List Bool :=
  accesses.map fun e => chosen (accessAddr e)

theorem write_mem_keepBy_maskOf {chosen : ErrAddr → Bool} {accesses : List ErrAccess} {a : ErrAddr} {v : F64} :
    .write a v ∈ keepBy (maskOf chosen accesses) accesses ↔ .write a v ∈ accesses ∧ chosen a = true := by
  rw [maskOf, keepBy_map, List.mem_filter]
  rfl

/-- With the mask of the chosen words, exactly these are new. -/
theorem readWord_abandon_maskOf {s t : State} (h : WritesStay s t) (chosen : ErrAddr → Bool) (beatSent : Bool)
    (a : ErrAddr) :
    (abandon s t (maskOf chosen (issued s t)) beatSent).err.readWord a =
      if chosen a then t.err.readWord a else s.err.readWord a := by
  rcases readWord_abandon h (maskOf chosen (issued s t)) beatSent a with ⟨⟨v, hv⟩, e⟩ | ⟨hno, e⟩
  · rw [e, if_pos (write_mem_keepBy_maskOf.1 hv).2]
  · rw [e]
    split
    next hchosen =>
      exact (h.unwritten a fun v hv => hno v (write_mem_keepBy_maskOf.2 ⟨hv, hchosen⟩)).symm
    next => rfl

/-- With no beat held, a word offered before the others is executed. -/
theorem step_offered_command {s : State} (cmd : Word) (rest : List Input) (hb : s.heldBeat = none) :
    step { s with input := .command cmd :: rest } = execWord cmd { s with input := rest } :=
  step_of_command (s := { s with input := .command cmd :: rest }) hb rfl

/-- With no beat held, a word during which reset lands is taken, and abandoned. -/
theorem step_of_resetDuring {s after : State} {cmd : Word} {kept : List Bool} {beatSent : Bool} {rest : List Input}
    (hb : s.heldBeat = none) (hi : s.input = .resetDuring cmd kept beatSent :: rest)
    (h : execWord cmd { s with input := rest } = .next after) :
    step s = .next (abandon { s with input := rest } after kept beatSent) := by
  have hnext : s.nextEvent = some (.resetDuring cmd kept beatSent, rest) := by
    rw [State.nextEvent, hb, hi]
    rfl
  simp only [step, hnext, takeInput, execWordAbandoned, h]

/-- Settles O13: the command would have led to some state, and what it wrote on the way there stays. -/
theorem resetDuringACommandIsWholeWordOrNothing : Obligations.ResetDuringACommandIsWholeWordOrNothing := by
  unfold Obligations.ResetDuringACommandIsWholeWordOrNothing
  intro s cmd kept beatSent rest hb hi
  obtain ⟨after, hexec⟩ := execWord_next cmd { s with input := rest }
  have hstay := writesStay_of_wordEffect (.of_execWord hexec)
  refine ⟨_, after, step_of_resetDuring hb hi hexec, (step_offered_command cmd rest hb).trans hexec, rfl, rfl, rfl, rfl,
    fun a => ?_, rfl⟩
  rcases readWord_abandon hstay kept beatSent a with ⟨-, hnew⟩ | ⟨-, hold⟩
  · exact .inr hnew
  · exact .inl hold

/-- Settles O14: the reset that performs exactly the accesses to the chosen words. -/
theorem resetDuringACommandAdmitsEverySubset : Obligations.ResetDuringACommandAdmitsEverySubset := by
  unfold Obligations.ResetDuringACommandAdmitsEverySubset
  intro s cmd rest after chosen beatSent hb hstep
  have hexec : execWord cmd { s with input := rest } = .next after := (step_offered_command cmd rest hb).symm.trans hstep
  have hstay := writesStay_of_wordEffect (.of_execWord hexec)
  exact ⟨maskOf chosen (issued { s with input := rest } after), _, step_of_resetDuring hb rfl hexec,
    readWord_abandon_maskOf hstay chosen beatSent, rfl⟩

/-! ### Reset between commands (R150) -/

/-- Settles O12: reset is no word, so it is taken also while a beat is held. -/
theorem resetSetsTheRegisters : Obligations.ResetSetsTheRegisters := by
  unfold Obligations.ResetSetsTheRegisters
  intro s rest hi
  have hstatus : Regs.reset.status = 0 := by decide
  exact ⟨resetBlock { s with input := rest }, step_of_not_word hi rfl, rfl, hstatus, rfl, rfl, rfl, rfl, rfl, rfl, rfl⟩

/-! ### The held block (R155 (e), R119) -/

/-- The holding block takes the first event that is no word, and leaves the words before it offered. -/
theorem takeable_words_append {words rest : List Input} {event : Input} (h : ∀ e ∈ words, e.isWord = true)
    (hevent : event.isWord = false) : takeable true (words ++ event :: rest) = some (event, words ++ rest) := by
  induction words with
  | nil => exact takeable_of_not_word true rest hevent
  | cons e words ih => simp [takeable, h e (by simp), ih fun x hx => h x (by simp [hx])]

theorem execPixel_of_withheld {p : Pix} {s : State} (n : Pix) (hs : s.regs.state = .run)
    (hx : isFinite (levelNow p s) = true) (hr : s.outReady = false) : execPixel p n s = .next (heldState p n s) := by
  simpa [hs, hx, hr] using execPixel_cases p n s

/-- A holding block that is offered only words stands still. -/
theorem step_of_held_words {s : State} {b : Beat} (hb : s.heldBeat = some b) (hw : ∀ e ∈ s.input, e.isWord = true) :
    step s = .next s := by
  rw [step, State.nextEvent, hb, Option.isSome_some, takeable_words hw]

/-- A holding block takes the host's readiness from behind the words that wait. -/
theorem step_of_held_outReady {s : State} {b : Beat} {words rest : List Input} {ready : Bool}
    (hb : s.heldBeat = some b) (hi : s.input = words ++ .outReady ready :: rest)
    (hw : ∀ e ∈ words, e.isWord = true) : step s = .next (setOutReady ready { s with input := words ++ rest }) := by
  rw [step, State.nextEvent, hb, hi, Option.isSome_some, takeable_words_append hw rfl]
  rfl

/-- Settles O27: taking the held beat ends the PIXEL in the state that a beat taken at once would have left. -/
theorem withheldBeatHoldsTheBlock : Obligations.WithheldBeatHoldsTheBlock := by
  unfold Obligations.WithheldBeatHoldsTheBlock
  rintro s p n x hs hr hb rfl hx
  refine ⟨heldState p n s, pixelState p n { s with outReady := true }, execPixel_of_withheld n hs hx hr,
    execPixel_of_finite n hs hx rfl, rfl, rfl, rfl, rfl, rfl, rfl, rfl, fun words rest hw => ⟨?_, ?_⟩⟩
  · exact step_of_held_words rfl hw
  · have htaken := setOutReady_heldState p n { s with input := words ++ rest } hb
    exact (step_of_held_outReady rfl rfl hw).trans (congrArg _ htaken)

end Sys2Proof.ResetProofs
end
